-- ==== Sys2Proof/Word.lean ====
section
/-! DEFINITION. The word types of the block: the 32-bit operation or step-label word (spec R90) and
the `W = 16`-bit register value (spec R10). Both are plain bit vectors, bit 0 least significant
(spec R16). -/

namespace Sys2Proof

/-- One operation word or step-label word (spec R90). -/
abbrev Word := BitVec 32

/-- A register value of width `W`: `CNT`, `PERIOD`, `CCR[i]`, `ACT[i]` (spec R32). Spec R10 gives the
width parameter the value `W = 16`. -/
abbrev Val := BitVec 16

end Sys2Proof
end

