-- ==== Sys2Proof/Syntax.lean ====
section
/-! DEFINITION. The operations and step labels of the block, one constructor per row of
spec/opcode_table.json (spec R91, R99). Operands are the encoding's fields as the decoder reads
them (spec R93, R94); no meaning is given here. -/

namespace Sys2Proof

/-- The nine codes of spec R91. The first four are host operations, `delay` is the host-program
statement, the last four are the step labels of the timer and of the interrupt context. -/
inductive Instr where
  /-- `CONFIGURE P` (spec R120): `p` is the period itself, in ticks. -/
  | configure (p : Val)
  /-- `SET_DUTY i, v` (spec R200): `ch` is the raw `CH` field, 3 included, since `CH = 3` decodes
  (spec R94). -/
  | setDuty (ch : BitVec 2) (v : Val)
  /-- `WRITE_CTRL m` (spec R123): `m` is `IMM[3:0]`. -/
  | writeCtrl (m : BitVec 4)
  /-- `READ_CNT` (spec R124). -/
  | readCnt
  /-- `DELAY n` (spec R214). -/
  | delay (n : Val)
  /-- `TICK` (spec R126). -/
  | tick
  /-- `SERVICE_PB` (spec R172). -/
  | servicePb
  /-- `SERVICE_CM` (spec R174). -/
  | serviceCm
  /-- `LATCH i` (spec R151): `ch` is the label's `CH` field; 3 names no step (spec R94) and is ill-formed. -/
  | latch (ch : BitVec 2)
  deriving DecidableEq, Repr

end Sys2Proof
end

