-- ==== Sys2Proof/Decode.lean ====
section
/-! DEFINITION. The one 32-bit format `OP CH RSV IMM` of spec R90, the three decoders of spec R96,
R102 and R214, each total and rejecting by name, and after them the encoder written from the bit
patterns of spec R92. -/

namespace Sys2Proof

/-- `OP = w[31:28]` (spec R90). -/
def opField (w : Word) : BitVec 4 := w.extractLsb' 28 4
/-- `CH = w[27:26]` (spec R90). -/
def chField (w : Word) : BitVec 2 := w.extractLsb' 26 2
/-- `RSV = w[25:16]` (spec R90). -/
def rsvField (w : Word) : BitVec 10 := w.extractLsb' 16 10
/-- `IMM = w[15:0]`, zero-extended wherever it is used (spec R90, R93). -/
def immField (w : Word) : Val := w.extractLsb' 0 16
/-- `IMM[15:4]`, which must be 0 in `WRITE_CTRL` (spec R91). -/
def immHigh (w : Word) : BitVec 12 := w.extractLsb' 4 12
/-- `IMM[3:0]`, the new `CTRL` of `WRITE_CTRL` (spec R93). -/
def immCtrl (w : Word) : BitVec 4 := w.extractLsb' 0 4

/-- Why a word is not an instruction where it stands. -/
inductive Reject where
  /-- An `OP` code with no meaning there: reserved, or a word of another kind (spec R95, R97). -/
  | badOp
  /-- `RSV ≠ 0` (spec R97). -/
  | reservedBits
  /-- A field fixed to 0 by spec R91 is not 0 (spec R97). -/
  | fixedField
  /-- `LATCH` with `CH = 3`, which names no step (spec R94). -/
  | noSuchStep
  deriving DecidableEq, Repr

/-- Accepts `i` when the word's fixed fields are 0. -/
def fixedZero (ok : Bool) (i : Instr) : Except Reject Instr :=
  if ok then .ok i else .error .fixedField

/-- `decode_host` of spec R96: a word the host presents to the block. Every rejection is the
`ILLEGAL` of that rule. -/
def decodeHost (w : Word) : Except Reject Instr :=
  if rsvField w ≠ 0#10 then .error .reservedBits
  else if opField w = 0x1#4 then fixedZero (chField w = 0#2) (.configure (immField w))
  else if opField w = 0x2#4 then .ok (.setDuty (chField w) (immField w))
  else if opField w = 0x3#4 then
    fixedZero (chField w = 0#2 ∧ immHigh w = 0#12) (.writeCtrl (immCtrl w))
  else if opField w = 0x4#4 then fixedZero (chField w = 0#2 ∧ immField w = 0#16) .readCnt
  else .error .badOp

/-- The one statement the host executes itself, `DELAY` (spec R91, R214). -/
def decodeOwn (w : Word) : Except Reject Instr :=
  if rsvField w ≠ 0#10 then .error .reservedBits
  else if opField w = 0x5#4 then fixedZero (chField w = 0#2) (.delay (immField w))
  else .error .badOp

/-- A word of the host's program that stands for the host itself: one `DELAY` (spec R214), or else a
host word like any other, which spec R96 decodes (spec R210, R97). Log entry 15. -/
def decodeHostOwn (w : Word) : Except Reject Instr :=
  match decodeOwn w with
  | .ok i => .ok i
  | .error _ => decodeHost w

/-- The step a step-label word names (spec R91, R102). -/
def decodeLabel (w : Word) : Except Reject Instr :=
  if rsvField w ≠ 0#10 then .error .reservedBits
  else if opField w = 0x8#4 then fixedZero (chField w = 0#2 ∧ immField w = 0#16) .tick
  else if opField w = 0x9#4 then fixedZero (chField w = 0#2 ∧ immField w = 0#16) .servicePb
  else if opField w = 0xA#4 then fixedZero (chField w = 0#2 ∧ immField w = 0#16) .serviceCm
  else if opField w = 0xB#4 then
    if chField w = 3#2 then .error .noSuchStep
    else fixedZero (immField w = 0#16) (.latch (chField w))
  else .error .badOp

/-- The kind of word an `OP` code belongs to (spec R95). Reserved codes are counted with the words
sent to the block, where spec R97 makes them illegal. -/
inductive WordKind where
  | toBlock | own | label
  deriving DecidableEq, Repr

/-- Which decoder a word of a recorded run is read by (spec R95, R102). -/
def wordKind (w : Word) : WordKind :=
  if opField w = 0x5#4 then .own
  else if opField w = 0x8#4 ∨ opField w = 0x9#4 ∨ opField w = 0xA#4 ∨ opField w = 0xB#4 then .label
  else .toBlock

/-- A word of a recorded run, host words and step-label words interleaved (spec R102). -/
def decodeWord (w : Word) : Except Reject Instr :=
  match wordKind w with
  | .own => decodeOwn w
  | .label => decodeLabel w
  | .toBlock => decodeHost w

/-- The word whose low `nbits` bits are `w` and whose other bits are 0, the table's numbering of
bits being that of spec R90. -/
def tableWord (nbits w : Nat) : Word := BitVec.ofNat 32 (w % 2 ^ nbits)

/-- The instruction the decoder reads from a word of spec/opcode_table.json. -/
def decodeTableWord (nbits w : Nat) : Option Instr :=
  match decodeWord (tableWord nbits w) with
  | .ok i => some i
  | .error _ => none

/-- `OP CH 0 IMM`, the format of spec R90 with `RSV = 0`. -/
def pack (op : BitVec 4) (ch : BitVec 2) (imm : Val) : Word := op ++ ch ++ 0#10 ++ imm

/-- The operation code of spec R91. -/
def opcode : Instr → BitVec 4
  | .configure _ => 0x1#4
  | .setDuty _ _ => 0x2#4
  | .writeCtrl _ => 0x3#4
  | .readCnt => 0x4#4
  | .delay _ => 0x5#4
  | .tick => 0x8#4
  | .servicePb => 0x9#4
  | .serviceCm => 0xA#4
  | .latch _ => 0xB#4

/-- The `CH` field of spec R92. -/
def chOperand : Instr → BitVec 2
  | .setDuty ch _ | .latch ch => ch
  | .configure _ | .writeCtrl _ | .readCnt | .delay _ | .tick | .servicePb | .serviceCm => 0#2

/-- The `IMM` field of spec R92. -/
def immOperand : Instr → Val
  | .configure p => p
  | .setDuty _ v => v
  | .writeCtrl m => (0#12 ++ m : BitVec 16)
  | .delay n => n
  | .readCnt | .tick | .servicePb | .serviceCm | .latch _ => 0#16

/-- The word of an instruction (spec R92). -/
def encode (i : Instr) : Word := pack (opcode i) (chOperand i) (immOperand i)

end Sys2Proof
end

