-- ==== Sys2Proof/Config.lean ====
section
/-! DEFINITION. What is fixed for one machine and never written by a step (spec R53), and the free
values the spec leaves open. A constant declared `opaque` has no body: nothing can be proved of its
value, so every theorem holds for each value it may have. -/

namespace Sys2Proof

/-- The three compare units of spec R12: units 0 and 1 are the hardware PWM channels, unit 2 is the
software channel's compare unit. -/
inductive Chan where
  | hw0 | hw1 | sw
  deriving DecidableEq, Repr

/-- The logical colours, which only the host program knows (spec R24). -/
inductive Colour where
  | red | green | blue
  deriving DecidableEq, Repr

/-- The parameters of the reference host program: its period constant `P` (spec R216), the argument
of its delay (spec R14) and `CHMAP` (spec R12). -/
structure FadeParams where
  period : Val
  delay : Val
  chmap : Colour → Chan

namespace Config

/-- FREE VALUE. The bit drawn at the `n`-th draw of a run: `b` of spec R151 (decision D14) and the
choice of `d` among `CCR[2]` and `ACT[2]` of spec R175 (decision D17). Log entry 2. -/
opaque freeBit : Nat → Bool

/-- FREE VALUE. Which of the enabled steps is taken at the `n`-th free choice of a run (spec R251:
any enabled step of any agent may be taken next). Log entry 1. -/
opaque freeTurn : Nat → Nat

/-- FREE VALUE. Statement `n` of the `k`-th endless host program: a word for the block, or the argument
of a `DELAY` (spec R253: the host may issue any host operation at any time). Log entry 4. -/
opaque freeHostStmt : Nat → Nat → Word ⊕ Val

/-- OPEN parameters `POL[0]` and `POL[1]` of spec R13 (decision D26). Log entry 8. -/
opaque pol0 : Bool
opaque pol1 : Bool

/-- `POL : {0,1,2} → {0,1}` of spec R13; only `POL[2] = 1` is stated by the source. -/
def pol : Chan → Bool
  | .hw0 => pol0
  | .hw1 => pol1
  | .sw => true

/-- The spec's default `CHMAP` (spec R12, decision D25): Green 0, Blue 1, Red 2. -/
def defaultChmap : Colour → Chan
  | .green => .hw0
  | .blue => .hw1
  | .red => .sw

/-- Which bijection `CHMAP` is, as a permutation of the colours before the default map; OPEN (spec
R12, decision D25). Log entry 9. -/
opaque colourPerm : Equiv.Perm Colour

/-- `CHMAP`: any bijection, fixed for the machine (spec R12). -/
def chmap (c : Colour) : Chan := defaultChmap (colourPerm c)

/-- The reference host program's period constant less one, so that the period ranges over 1..65535
(spec R11, R216). Log entry 9. -/
opaque fadePeriodPred : Fin 65535

/-- `STEP_DELAY`, the argument of the program's delay (spec R14). Log entry 9. -/
opaque stepDelay : Val

/-- `BASE`, where a host would see the block's registers; OPEN and read by no rule (spec R77). Log entry 11. -/
opaque base : Nat

/-- The Fade Sequencer's parameters on this machine (spec R14, R216). -/
def fade : FadeParams where
  period := BitVec.ofNat 16 (fadePeriodPred.val + 1)
  delay := stepDelay
  chmap := chmap

end Config

end Sys2Proof
end

