-- ==== Sys2Proof/Machine/State.lean ====
section
/-! DEFINITION. The state of the block (spec R32), of the host agent (spec R210) and the model's own
bookkeeping, as plain data; the reasons a step can stop; and the state at reset (spec R52, R270). -/

namespace Sys2Proof.Machine

/-- `ESTATE`, the edge-state flag (spec R41): `Deasserted` = 0, `Asserted` = 1. -/
inductive EState where
  | deasserted | asserted
  deriving DecidableEq, Repr

/-- Three registers of one kind, one per compare unit (spec R43, R44). -/
structure Bank where
  u0 : Val
  u1 : Val
  u2 : Val
  deriving DecidableEq, Repr

/-- The model fault codes, the complete list of spec R232. -/
inductive FaultCode where
  /-- Code 1 `ILLEGAL_OP`, raised at the decoding of a host word. -/
  | illegalOp
  /-- Code 2 `BAD_CHANNEL`, raised by `SET_DUTY`. -/
  | badChannel
  /-- Code 3 `BAD_PERIOD`, raised by `CONFIGURE`. -/
  | badPeriod
  /-- Code 4 `NOT_CONFIGURED`, raised by `WRITE_CTRL`. -/
  | notConfigured
  deriving DecidableEq, Repr

/-- The reasons of `refuse(reason)`; spec R233 has one. -/
inductive RefuseReason where
  | reconfigure
  deriving DecidableEq, Repr

/-- Pair index `k ∈ {0, 1, 2}` of spec R210. -/
inductive Pair where
  | p0 | p1 | p2
  deriving DecidableEq, Repr

/-- Sub-step `s ∈ {0, 1, 2}` of spec R210. -/
inductive SubStep where
  | s0 | s1 | s2
  deriving DecidableEq, Repr

/-- The program position of the Fade Sequencer (spec R210): `Init0`, `Init1` or `Run(k, i, s)`. -/
inductive FadePc where
  | init0
  | init1
  | run (k : Pair) (i : Nat) (s : SubStep)
  deriving DecidableEq, Repr

/-- One statement of a host program (spec R210): a word presented to the block, which is decoded by
`decode_host` (spec R96), or a statement word the host executes itself (`DELAY`, spec R214). An own
word that is no `DELAY` is a host word too (log entry 15). -/
inductive HostStmt where
  | toBlock (w : Word)
  | own (w : Word)
  deriving DecidableEq, Repr

/-- What a host program other than the Fade Sequencer does after the statements listed for it. -/
inductive HostTail where
  /-- The program has ended (spec R103). -/
  | ends
  /-- It issues `first` and then `more`, over and over, without end. -/
  | again (first : HostStmt) (more : List HostStmt)
  /-- It issues the statements of endless program `k` from number `n` on, whatever they are. -/
  | free (k n : Nat)
  deriving DecidableEq, Repr

/-- The host agent's program and position. Spec R210's `pc` is the position in the reference program;
a model may instantiate the host with any other program, which is here the statements it has still
to issue: the listed ones, then those of `tail` (file 44's preamble, spec R253). Log entry 4. -/
inductive HostPc where
  | fade (p : FadePc)
  | other (rest : List HostStmt) (tail : HostTail)
  deriving DecidableEq, Repr

/-- Who takes the next step of a run (spec R251): the host its next statement, or another agent the
step that a label word names (spec R102). -/
inductive Turn where
  | host
  | label (w : Word)
  deriving DecidableEq, Repr

/-- The complete state. The first ten fields are spec R32's record (numbers 0 to 11 and the two
bookkeeping elements); `pc` is the host agent's (spec R210); `rd` is the host's read-data path (spec
R18, R124); the last three are the model's own and hold the choices the spec leaves free. -/
structure State where
  /-- `PERIOD`, number 0, 16 bits (spec R33). -/
  period : Val
  /-- `CNT`, number 1, 16 bits (spec R35). -/
  cnt : Val
  /-- `CTRL`, number 2: bit 0 `CEN`, 1 `PBIE`, 2 `CMIE`, 3 `GIE` (spec R36). -/
  ctrl : BitVec 4
  /-- `STATUS`, number 3: bit 0 `PBF`, bit 1 `CMF` (spec R39, R40). -/
  status : BitVec 2
  /-- `CCR[0..2]`, numbers 4 to 6, the written compare values (spec R43). -/
  ccr : Bank
  /-- `ACT[0..2]`, numbers 7 to 9, the active compare values (spec R44). -/
  act : Bank
  /-- `ESTATE`, number 10 (spec R41). -/
  estate : EState
  /-- `CONFIGURED`, number 11, 1 bit (spec R34). -/
  configured : Bool
  /-- `FAULT`: none, or the code and the host word (spec R48, R231). -/
  fault : Option (FaultCode × Word)
  /-- `REFUSED`: none, or the reason and the host word (spec R48, R233). -/
  refused : Option (RefuseReason × Word)
  /-- The host's `pc` (spec R210). -/
  pc : HostPc
  /-- The value last returned to the host on the read-data path (spec R18, R124). Log entry 3. -/
  rd : Word
  /-- MODEL'S OWN. Steps already chosen, first one next (spec R102); empty means that the next step is
  chosen freely among the enabled ones (spec R251). Log entry 1. -/
  schedule : List Turn
  /-- MODEL'S OWN. How many free choices of a step have been made. Log entry 1. -/
  turns : Nat
  /-- MODEL'S OWN. How many bits have been drawn (spec R18 `draw`). Log entry 2. -/
  draws : Nat
  deriving DecidableEq, Repr

/-- Why a step stops. None is a step the spec allows: each is a stuck state. -/
inductive Fault where
  /-- `FAULT` is recorded, so no step of any agent is enabled (spec R231). Raised by every step and
  every meaning in such a state. Safe: the spec allows no step here. -/
  | halted (code : FaultCode) (w : Word)
  /-- The scheduled timer or interrupt step is not enabled (spec R103), so no run takes it here. Raised
  by the meanings of the four step labels. Safe: the spec allows no such step. -/
  | notEnabled (i : Instr)
  /-- The word scheduled as a step label names no step: "no run contains it" (spec R94, conflict C12,
  item I19), and spec R103 has no other step to take for it. Raised by the fetch of the model's own
  `schedule` only, never by the host's turn or a free choice. Safe: no run contains it. -/
  | noSuchStep (w : Word)
  /-- The host is scheduled and its program has ended, so the host step is not enabled (spec R103).
  Raised by the fetch. Safe: the spec allows no such step. -/
  | hostFinished
  /-- No step of any agent is enabled and none was recorded as the cause: the run ends (spec R251,
  R252). Raised by the fetch. Safe: the spec allows no step here. -/
  | runEnded
  deriving DecidableEq, Repr

/-- Why the model gives no step. -/
inductive Refusal where
  /-- An instruction with no meaning yet; raised by no arm of `exec`. Safe: the model stops. -/
  | notModelled (mnemonic : String)
  /-- `REFUSED` is recorded, so no step of any agent is enabled (spec R233). Raised by every step and
  every meaning in such a state. Safe: the spec allows no step here. -/
  | halted (reason : RefuseReason) (w : Word)
  deriving DecidableEq, Repr

/-- The machine right after reset (spec R52, R270): every register 0, `ESTATE` deasserted, nothing
recorded, the host at the Fade Sequencer's `Init0`; nothing scheduled, nothing chosen or drawn. -/
def State.reset : State where
  period := 0#16
  cnt := 0#16
  ctrl := 0#4
  status := 0#2
  ccr := { u0 := 0#16, u1 := 0#16, u2 := 0#16 }
  act := { u0 := 0#16, u1 := 0#16, u2 := 0#16 }
  estate := .deasserted
  configured := false
  fault := none
  refused := none
  pc := .fade .init0
  rd := 0#32
  schedule := []
  turns := 0
  draws := 0

end Sys2Proof.Machine
end

