-- ==== Sys2Proof/Machine/Operands.lean ====
section
/-! DEFINITION. The operand forms: the compare unit a `CH` field selects (spec R94), the per-unit
registers (spec R43, R44), the value a read returns (spec R73) and the duty value a service draws
(spec R175). -/

namespace Sys2Proof.Machine

/-- `CH` as a unit index: 0 and 1 the hardware channels, 2 the software channel's unit, 3 none
(spec R94). -/
def chan? (ch : BitVec 2) : Option Chan :=
  if ch = 0#2 then some .hw0
  else if ch = 1#2 then some .hw1
  else if ch = 2#2 then some .sw
  else none

/-- The `CH` field of a unit (spec R94). -/
def chOf : Chan → BitVec 2
  | .hw0 => 0#2
  | .hw1 => 1#2
  | .sw => 2#2

/-- The register of one unit. -/
def Bank.get (b : Bank) : Chan → Val
  | .hw0 => b.u0
  | .hw1 => b.u1
  | .sw => b.u2

/-- Writes the register of one unit whole (spec R73, R74). -/
def Bank.set (b : Bank) (i : Chan) (v : Val) : Bank :=
  match i with
  | .hw0 => { b with u0 := v }
  | .hw1 => { b with u1 := v }
  | .sw => { b with u2 := v }

/-- `zext_32` of a register value (spec R16, R124). -/
def zext32 (v : Val) : Word := v.setWidth 32

/-- `draw d ∈ {CCR[2], ACT[2]}` of spec R175: the drawn bit chooses the written value or the active
one, and where the two are equal the draw has one outcome. -/
def drawnDuty (b : Bool) (s : State) : Val :=
  if s.ccr.u2 = s.act.u2 then s.act.u2 else if b then s.ccr.u2 else s.act.u2

end Sys2Proof.Machine
end

