-- ==== Sys2Proof/Machine/Flags.lean ====
section
/-! DEFINITION. The fields of `CTRL` (spec R36) and `STATUS` (spec R39, R40): reading, setting and
clearing each. -/

namespace Sys2Proof.Machine

/-- `CTRL.CEN`, the counter enable (spec R36 bit 0). -/
def State.cen (s : State) : Bool := s.ctrl.getLsbD 0
/-- `CTRL.PBIE`, the period-boundary enable (spec R36 bit 1). -/
def State.pbie (s : State) : Bool := s.ctrl.getLsbD 1
/-- `CTRL.CMIE`, the compare-match enable (spec R36 bit 2). -/
def State.cmie (s : State) : Bool := s.ctrl.getLsbD 2
/-- `CTRL.GIE`, the interrupt-controller enable (spec R36 bit 3). -/
def State.gie (s : State) : Bool := s.ctrl.getLsbD 3

/-- `CTRL` with `CEN` set and its other bits kept (spec R120). -/
def setCen (c : BitVec 4) : BitVec 4 := c ||| 0x1#4

/-- `STATUS.PBF`, the period-boundary pending flag (spec R39). -/
def State.pbf (s : State) : Bool := s.status.getLsbD 0
/-- `STATUS.CMF`, the compare-match pending flag (spec R40). -/
def State.cmf (s : State) : Bool := s.status.getLsbD 1

/-- `PBF <- 1`; a flag already set stays set (spec R39, overrun merges). -/
def State.raisePbf (s : State) : State := { s with status := s.status ||| 0b01#2 }
/-- `CMF <- 1`; a flag already set stays set (spec R40). -/
def State.raiseCmf (s : State) : State := { s with status := s.status ||| 0b10#2 }
/-- `PBF <- 0` (spec R172). -/
def State.clearPbf (s : State) : State := { s with status := s.status &&& 0b10#2 }
/-- `CMF <- 0` (spec R174). -/
def State.clearCmf (s : State) : State := { s with status := s.status &&& 0b01#2 }

end Sys2Proof.Machine
end

