-- ==== Sys2Proof/Machine/Ops.lean ====
section
/-! DEFINITION. The shared operations of the meanings: recording a fault or a refusal (spec R231,
R233), the enabling conditions of spec R103, and the two guards every step passes. The spec has no
exception entry other than the record, and no return from it (spec R230, R241). -/

namespace Sys2Proof.Machine

/-- What a step answers. -/
abbrev Result := Host.Outcome State Fault Refusal

/-- `raise Fault(code)` while the host word `w` is executed (spec R231): the record is written and no
other state changes. -/
def raiseFault (code : FaultCode) (w : Word) (s : State) : State := { s with fault := some (code, w) }

/-- `refuse(reason)` (spec R233): the record is written and no other state changes. -/
def refuse (reason : RefuseReason) (w : Word) (s : State) : State :=
  { s with refused := some (reason, w) }

/-- The number of a fault code (spec R232). -/
def FaultCode.number : FaultCode → Nat
  | .illegalOp => 1
  | .badChannel => 2
  | .badPeriod => 3
  | .notConfigured => 4

/-- `FAULT = none ∧ REFUSED = none`, which every step requires (spec R103). -/
def State.live (s : State) : Bool := s.fault.isNone && s.refused.isNone

/-- Answers `k` when nothing is recorded; otherwise no step of any agent is enabled (spec R231, R233). -/
def whenLive (s : State) (k : Result) : Result :=
  match s.fault with
  | some (code, w) => .fault (.halted code w)
  | none =>
    match s.refused with
    | some (reason, w) => .refused (.halted reason w)
    | none => k

/-- The step label `i`, taken from `s` to `t` when it is enabled (spec R18, R103). -/
def guarded (i : Instr) (enabled : Bool) (s t : State) : Result :=
  whenLive s (if enabled then .next t else .fault (.notEnabled i))

/-- `rd <- v` (spec R18): `v` is returned to the host on its read-data path. -/
def returnData (v : Word) (s : State) : State := { s with rd := v }

/-- The bit the next draw of this state gives (spec R18 `draw`): a free value. -/
def drawnBit (s : State) : Bool := Config.freeBit s.draws

/-- The state after one draw. -/
def afterDraw (s : State) : State := { s with draws := s.draws + 1 }

/-- `TICK` is enabled, apart from `live` (spec R103, R126). -/
def tickEnabled (s : State) : Bool := s.configured && s.cen

/-- `LATCH i` is enabled, apart from `live` (spec R103, R151). -/
def latchEnabled (i : Chan) (s : State) : Bool := decide (s.act.get i ≠ s.ccr.get i)

/-- `SERVICE_PB` is enabled, apart from `live` (spec R103, R172). -/
def pbEnabled (s : State) : Bool := s.gie && s.pbie && s.pbf

/-- `SERVICE_CM` is enabled, apart from `live` (spec R103, R174). -/
def cmEnabled (s : State) : Bool := s.gie && s.cmie && s.cmf

end Sys2Proof.Machine
end

