-- ==== Sys2Proof/Machine/FadeSequencer.lean ====
section
/-! DEFINITION. The host agent: the reference host program of file 44 (spec R210 to R213, R216), the
pseudo-operations of spec R104, a host running any other program, and the meaning of the host
statement `DELAY` (spec R214). -/

namespace Sys2Proof.Machine

/-- `SET_COLOUR c, v` ≡ `SET_DUTY CHMAP(c), v` (spec R104). -/
def setColour (chmap : Colour → Chan) (c : Colour) (v : Val) : Instr := .setDuty (chOf (chmap c)) v
/-- `IRQ_ON` ≡ `WRITE_CTRL 0xF` (spec R104). -/
def irqOn : Instr := .writeCtrl 0xF#4
/-- `IRQ_OFF` ≡ `WRITE_CTRL 0x1` (spec R104). -/
def irqOff : Instr := .writeCtrl 0x1#4

/-- `FROM = [Red, Blue, Green]` (spec R212). -/
def Pair.source : Pair → Colour
  | .p0 => .red
  | .p1 => .blue
  | .p2 => .green

/-- `TO = [Blue, Green, Red]` (spec R212). -/
def Pair.target : Pair → Colour
  | .p0 => .blue
  | .p1 => .green
  | .p2 => .red

/-- `(k + 1) mod 3` (spec R212, R215). -/
def Pair.succ : Pair → Pair
  | .p0 => .p1
  | .p1 => .p2
  | .p2 => .p0

/-- The host operation or `DELAY` at a position of the Fade Sequencer (spec R211, R212). -/
def FadePc.instr (f : FadeParams) : FadePc → Instr
  | .init0 => .configure f.period
  | .init1 => irqOn
  | .run k i .s0 => setColour f.chmap k.source (f.period - BitVec.ofNat 16 i)
  | .run k i .s1 => setColour f.chmap k.target (BitVec.ofNat 16 i)
  | .run _ _ .s2 => .delay f.delay

/-- The statement at a position: `DELAY` is the host's own, the rest go to the block (spec R210). -/
def FadePc.stmt (f : FadeParams) (p : FadePc) : HostStmt :=
  match p with
  | .run _ _ .s2 => .own (encode (p.instr f))
  | .init0 | .init1 | .run _ _ .s0 | .run _ _ .s1 => .toBlock (encode (p.instr f))

/-- The position after a statement (spec R211, R212): one pair-fade runs `i` from 0 to `P`, and the
three pairs follow each other without end (spec R213). -/
def FadePc.next (P : Nat) : FadePc → FadePc
  | .init0 => .init1
  | .init1 => .run .p0 0 .s0
  | .run k i .s0 => .run k i .s1
  | .run k i .s1 => .run k i .s2
  | .run k i .s2 => if i < P then .run k (i + 1) .s0 else .run k.succ 0 .s0

/-- Statement `n` of endless host program `k` (log entry 4). -/
def freeStmt (k n : Nat) : HostStmt :=
  match Config.freeHostStmt k n with
  | .inl w => .toBlock w
  | .inr d => .own (encode (.delay d))

/-- The host's next statement; none when its program has ended (spec R103). -/
def HostPc.stmt? : HostPc → Option HostStmt
  | .fade p => some (p.stmt Config.fade)
  | .other (st :: _) _ => some st
  | .other [] .ends => none
  | .other [] (.again first _) => some first
  | .other [] (.free k n) => some (freeStmt k n)

/-- `pc <- next` (spec R210, R214). -/
def HostPc.next : HostPc → HostPc
  | .fade p => .fade (p.next Config.fade.period.toNat)
  | .other (_ :: rest) tl => .other rest tl
  | .other [] .ends => .other [] .ends
  | .other [] (.again first more) => .other more (.again first more)
  | .other [] (.free k n) => .other [] (.free k (n + 1))

/-- The host is to issue `st` first and then its own program; a host that ran the Fade Sequencer
leaves it (log entry 5). -/
def HostPc.push (st : HostStmt) : HostPc → HostPc
  | .fade _ => .other [st] .ends
  | .other rest tl => .other (st :: rest) tl

/-- A host statement has been executed: the host's position moves on (spec R210). Nothing else does,
and a fault or a refusal leaves the position too (spec R231, R233). -/
def hostDone (s : State) : State := { s with pc := s.pc.next }

/-- The host step is enabled, apart from `live` (spec R103, R210). -/
def hostEnabled (s : State) : Bool := s.pc.stmt?.isSome

/-- `DELAY n` (spec R214): only the host's position changes, whatever `n` is. -/
def execDelay (_n : Val) (s : State) : Result := whenLive s (.next (hostDone s))

end Sys2Proof.Machine
end

