-- ==== Sys2Proof/Machine/Counter.lean ====
section
/-! DEFINITION. The Counter/Period unit (file 40): the meanings of `CONFIGURE`, `WRITE_CTRL`,
`READ_CNT` and `TICK`. -/

namespace Sys2Proof.Machine

/-- The four writes of a successful `CONFIGURE` (spec R120). -/
def startCounter (p : Val) (s : State) : State :=
  { s with period := p, cnt := 0#16, ctrl := setCen s.ctrl, configured := true }

/-- `CONFIGURE P` (spec R120, R121): the period is checked before the reconfiguration (spec R239). -/
def execConfigure (p : Val) (s : State) : Result :=
  whenLive s <|
    if p = 0#16 then .next (raiseFault .badPeriod (encode (.configure p)) s)
    else if s.configured then .next (refuse .reconfigure (encode (.configure p)) s)
    else .next (hostDone (startCounter p s))

/-- `WRITE_CTRL m` (spec R123). -/
def execWriteCtrl (m : BitVec 4) (s : State) : Result :=
  whenLive s <|
    if m.getLsbD 0 && !s.configured then
      .next (raiseFault .notConfigured (encode (.writeCtrl m)) s)
    else .next (hostDone { s with ctrl := m })

/-- `READ_CNT` (spec R124). -/
def execReadCnt (s : State) : Result :=
  whenLive s (.next (hostDone (returnData (zext32 s.cnt) s)))

/-- The first branch of spec R126: the counter wraps, every unit's `ACT` takes its `CCR` and `PBF` is
set; or the counter counts up. -/
def count (s : State) : State :=
  if s.cnt = s.period - 1#16 then { s with cnt := 0#16, act := s.ccr }.raisePbf
  else { s with cnt := s.cnt + 1#16 }

/-- The compare match of spec R126, on the counter and the active value as just written. -/
def compareMatch (s : State) : State := if s.cnt = s.act.u2 then s.raiseCmf else s

/-- `TICK` (spec R126). -/
def execTick (s : State) : Result := guarded .tick (tickEnabled s) s (compareMatch (count s))

end Sys2Proof.Machine
end

