-- ==== Sys2Proof/Machine/DutyController.lean ====
section
/-! DEFINITION. The Duty Controller (file 43): the meaning of `SET_DUTY`. -/

namespace Sys2Proof.Machine

/-- `SET_DUTY i, v` (spec R200): `v` is stored unclamped (spec R201), `CH = 3` faults. -/
def execSetDuty (ch : BitVec 2) (v : Val) (s : State) : Result :=
  whenLive s <|
    match chan? ch with
    | some i => .next (hostDone { s with ccr := s.ccr.set i v })
    | none => .next (raiseFault .badChannel (encode (.setDuty ch v)) s)

end Sys2Proof.Machine
end

