-- ==== Sys2Proof/Machine/HwChannel.lean ====
section
/-! DEFINITION. The hardware PWM channels (file 41): the meaning of `LATCH`, which also serves
unit 2. -/

namespace Sys2Proof.Machine

/-- The draw of spec R151: unit 2's comparator has just been loaded with the counter's value, and may
or may not report the match. `b` is the drawn bit. -/
def freshMatch (b : Bool) (i : Chan) (s : State) : State :=
  if i = .sw ∧ s.configured = true ∧ s.act.u2 = s.cnt then
    afterDraw (if b then s.raiseCmf else s)
  else s

/-- `ACT[i] <- CCR[i]` and the draw (spec R151). -/
def latchUnit (b : Bool) (i : Chan) (s : State) : State :=
  freshMatch b i { s with act := s.act.set i (s.ccr.get i) }

/-- `LATCH` with the drawn bit given; `CH = 3` is never enabled (spec R94). -/
def latchWith (b : Bool) (ch : BitVec 2) (s : State) : Result :=
  match chan? ch with
  | some i => guarded (.latch ch) (latchEnabled i s) s (latchUnit b i s)
  | none => guarded (.latch ch) false s s

/-- `LATCH i` (spec R151). -/
def execLatch (ch : BitVec 2) (s : State) : Result := latchWith (drawnBit s) ch s

end Sys2Proof.Machine
end

