-- ==== Sys2Proof/Machine/SwChannel.lean ====
section
/-! DEFINITION. The software PWM channel (file 42): the two service steps of the edge-synchronization
state machine. Taking an interrupt is taking one of them: nothing is saved, masked or restored
(spec R240, R241). -/

namespace Sys2Proof.Machine

/-- The transition of spec R172, with the counter and the duty read in `s`. -/
def assertEdge (d : Val) (s : State) : State :=
  if s.estate = .deasserted ∧ s.cnt < d then { s with estate := .asserted } else s

/-- The transition of spec R174. -/
def deassertEdge (d : Val) (s : State) : State :=
  if s.estate = .asserted ∧ d ≤ s.cnt then { s with estate := .deasserted } else s

/-- `SERVICE_PB` with the drawn bit given: the flag is cleared in every case (spec R176). -/
def servicePbWith (b : Bool) (s : State) : Result :=
  guarded .servicePb (pbEnabled s) s (assertEdge (drawnDuty b s) (afterDraw s.clearPbf))

/-- `SERVICE_CM` with the drawn bit given. -/
def serviceCmWith (b : Bool) (s : State) : Result :=
  guarded .serviceCm (cmEnabled s) s (deassertEdge (drawnDuty b s) (afterDraw s.clearCmf))

/-- `SERVICE_PB` (spec R172). -/
def execServicePb (s : State) : Result := servicePbWith (drawnBit s) s

/-- `SERVICE_CM` (spec R174). -/
def execServiceCm (s : State) : Result := serviceCmWith (drawnBit s) s

end Sys2Proof.Machine
end

