-- ==== Sys2Proof/Machine/Dispatch.lean ====
section
/-! DEFINITION. The meaning of each instruction, one arm per constructor (spec R99). -/

namespace Sys2Proof.Machine

def exec (i : Instr) (s : State) : Host.Outcome State Fault Refusal :=
  match i with
  | .configure p => Sys2Proof.Machine.execConfigure p s
  | .setDuty ch v => Sys2Proof.Machine.execSetDuty ch v s
  | .writeCtrl m => Sys2Proof.Machine.execWriteCtrl m s
  | .readCnt => Sys2Proof.Machine.execReadCnt s
  | .delay n => Sys2Proof.Machine.execDelay n s
  | .tick => Sys2Proof.Machine.execTick s
  | .servicePb => Sys2Proof.Machine.execServicePb s
  | .serviceCm => Sys2Proof.Machine.execServiceCm s
  | .latch ch => Sys2Proof.Machine.execLatch ch s

end Sys2Proof.Machine
end

