-- ==== Sys2Proof/Machine/Fetch.lean ====
section
/-! DEFINITION. Which step is taken next (spec R103, R251) and which instruction it executes: the next
scheduled turn, or with nothing scheduled a free choice among the enabled steps; then the host's next
statement or the label's step, decoded. -/

namespace Sys2Proof.Machine

/-- The turn of a step label. -/
def labelTurn (i : Instr) : Turn := .label (encode i)

/-- The agents' steps that are enabled in a live state (spec R103). -/
def enabledTurns (s : State) : List Turn :=
  (if hostEnabled s then [.host] else []) ++
  ((if tickEnabled s then [labelTurn .tick] else []) ++
  ((if pbEnabled s then [labelTurn .servicePb] else []) ++
  ((if cmEnabled s then [labelTurn .serviceCm] else []) ++
  ((if latchEnabled .hw0 s then [labelTurn (.latch (chOf .hw0))] else []) ++
  ((if latchEnabled .hw1 s then [labelTurn (.latch (chOf .hw1))] else []) ++
  (if latchEnabled .sw s then [labelTurn (.latch (chOf .sw))] else []))))))

/-- The free choice among several enabled steps (spec R251). -/
def pick (n : Nat) (t : Turn) (ts : List Turn) : Turn :=
  (t :: ts).getD (Config.freeTurn n % (ts.length + 1)) t

/-- The next turn, and the state in which it is taken: a scheduled turn leaves the schedule, a free
choice is counted, and one enabled step alone leaves no choice. -/
def nextTurn (s : State) : Option (Turn × State) :=
  match s.schedule with
  | t :: rest => some (t, { s with schedule := rest })
  | [] =>
    match enabledTurns s with
    | [] => none
    | [t] => some (t, s)
    | t :: t' :: ts => some (pick s.turns t (t' :: ts), { s with turns := s.turns + 1 })

/-- What a turn turns out to be. -/
inductive Fetched where
  | instr (i : Instr) (s : State)
  /-- The host presents a word that `decode_host` finds illegal (spec R96). -/
  | illegal (w : Word) (s : State)
  | stop (f : Fault)
  | refuse (r : Refusal)
  deriving DecidableEq, Repr

/-- The instruction of one turn: the host's statement is decoded as a block word or as its own (spec
R96, R210, R214), and an illegal one is executed as a fault (spec R96, R97); a label word is decoded
as a step label (spec R102), and one that names no step is in no run (spec R94). -/
def fetchTurn (t : Turn) (s : State) : Fetched :=
  match t with
  | .label w =>
    match decodeLabel w with
    | .ok i => .instr i s
    | .error _ => .stop (.noSuchStep w)
  | .host =>
    match s.pc.stmt? with
    | none => .stop .hostFinished
    | some (.toBlock w) =>
      match decodeHost w with
      | .ok i => .instr i s
      | .error _ => .illegal w s
    | some (.own w) =>
      match decodeHostOwn w with
      | .ok i => .instr i s
      | .error _ => .illegal w s

/-- The machine's next instruction. A recorded fault or refusal disables every step (spec R231,
R233). -/
def fetch (s : State) : Fetched :=
  match s.fault with
  | some (code, w) => .stop (.halted code w)
  | none =>
    match s.refused with
    | some (reason, w) => .refuse (.halted reason w)
    | none =>
      match nextTurn s with
      | none => .stop .runEnded
      | some (t, s') => fetchTurn t s'

/-- Places the word of a recorded run (spec R102) so that it is the next step: a label is scheduled;
a host word becomes the next statement of the host's program and the host is scheduled. Log entry 5. -/
def placeWord (w : Word) (s : State) : State :=
  match wordKind w with
  | .label => { s with schedule := .label w :: s.schedule }
  | .own => { s with pc := s.pc.push (.own w), schedule := .host :: s.schedule }
  | .toBlock => { s with pc := s.pc.push (.toBlock w), schedule := .host :: s.schedule }

end Sys2Proof.Machine
end

