-- ==== Sys2Proof/Machine/Step.lean ====
section
/-! DEFINITION. One step of the machine: the next agent's step, fetched and executed. An illegal host
word is executed as the fault of spec R96. -/

namespace Sys2Proof.Machine

def step (s : State) : Host.Outcome State Fault Refusal :=
  match fetch s with
  | .instr i s' => exec i s'
  | .illegal w s' => .next (raiseFault .illegalOp w s')
  | .stop f => .fault f
  | .refuse r => .refused r

/-- `s` with the word of the low `nbits` bits of `w` as its next step. -/
def State.withFetchWord (s : State) (nbits w : Nat) : State := placeWord (tableWord nbits w) s

end Sys2Proof.Machine
end

