-- ==== Sys2Proof/Machine/Outputs.lean ====
section
/-! DEFINITION. The outputs, which are combinational functions of the state and no state themselves
(spec R45 to R47). -/

namespace Sys2Proof.Machine

/-- `CNT < ACT[i]`, unsigned: the logical output `OUT[i]` of a hardware channel (spec R45). Unit 2's
comparator drives no output (spec R46, R158). -/
def out (i : Chan) (s : State) : Bool := decide (s.cnt < s.act.get i)

/-- `SWOUT = ESTATE`, 1 iff asserted (spec R46). -/
def swout (s : State) : Bool := decide (s.estate = .asserted)

/-- `LEVEL[i]`, the physical level (spec R13, R47). -/
def level (i : Chan) (s : State) : Bool :=
  match i with
  | .hw0 => out .hw0 s ^^ Config.pol .hw0
  | .hw1 => out .hw1 s ^^ Config.pol .hw1
  | .sw => swout s ^^ Config.pol .sw

end Sys2Proof.Machine
end

