-- ==== Sys2Proof/Safety.lean ====
section
/-! DEFINITION. What claims about the block are stated over: the invariant of spec R54, the moves of
the three agents with every draw left free (spec R19, R103, R250), the runs they make and the weak
fairness of an admitted run (spec R251), the latency bound `LAT` (spec R15), and the state the Fade
Sequencer keeps (spec R217). -/

namespace Sys2Proof.Safety

open Sys2Proof.Machine

/-- The invariants of spec R54 (its third item is `swout` by definition). -/
abbrev BlockInv (s : State) : Prop :=
  (s.configured = true → s.period ≠ 0#16 ∧ s.cnt < s.period) ∧
  (s.configured = false → s.period = 0#16 ∧ s.cnt = 0#16 ∧ s.cen = false)

/-- `w` is no host operation, and the host step that issues it raises `Fault(ILLEGAL_OP)` and does
nothing else (spec R96, R231). -/
def IllegalWord (w : Word) : Prop :=
  (∀ i, decodeHost w ≠ .ok i) ∧
  ∀ (s : State) (rest : List Turn), s.live = true → s.schedule = .host :: rest →
    s.pc.stmt? = some (.toBlock w) →
    step s = .next { s with schedule := rest, fault := some (.illegalOp, w) }

/-- The host executes `i`: the four host operations and `DELAY` (spec R91). -/
def byHost : Instr → Bool
  | .configure _ | .setDuty _ _ | .writeCtrl _ | .readCnt | .delay _ => true
  | .tick | .servicePb | .serviceCm | .latch _ => false

/-- The meaning of an instruction with its drawn bit given, so that a claim can range over both
outcomes of a draw. -/
def execWith (b : Bool) (i : Instr) (s : State) : Result :=
  match i with
  | .latch ch => latchWith b ch s
  | .servicePb => servicePbWith b s
  | .serviceCm => serviceCmWith b s
  | .configure _ | .setDuty _ _ | .writeCtrl _ | .readCnt | .delay _ | .tick => exec i s

/-- One atomic step of some agent: an instruction, or an illegal word presented by the host. -/
inductive Move where
  | instr (i : Instr)
  | illegal (w : Word)
  deriving DecidableEq, Repr

/-- The move is the host's. -/
def Move.isHost : Move → Bool
  | .instr i => byHost i
  | .illegal _ => true

/-- `m` can be taken in `s` and leads to `s'`, for some outcome of its draw. The host's move is its
next statement (spec R210); the other agents move by their enabling conditions (spec R103). -/
def Moves (s : State) (m : Move) (s' : State) : Prop :=
  match m with
  | .instr i => (byHost i = true → fetchTurn .host s = .instr i s) ∧ ∃ b, execWith b i s = .next s'
  | .illegal w => s.live = true ∧ fetchTurn .host s = .illegal w s ∧ s' = raiseFault .illegalOp w s

/-- The states of the runs from reset of a block whose host starts at `pc0` (spec R252: the finite
prefixes of runs). -/
inductive Reachable (pc0 : HostPc) : State → Prop
  | reset : Reachable pc0 { State.reset with pc := pc0 }
  | move {s s' : State} {m : Move} : Reachable pc0 s → Moves s m s' → Reachable pc0 s'

/-- An infinite run, from any state (spec R251). -/
structure Run where
  state : Nat → State
  move : Nat → Move
  moves : ∀ n, Moves (state n) (move n) (state (n + 1))

namespace Run

/-- How many of the `k` moves from index `a` on satisfy `p`. -/
def count (p : Nat → Bool) (a k : Nat) : Nat := (List.range k).countP fun j => p (a + j)

/-- Move `n` is a `TICK`. -/
def ticksAt (r : Run) (n : Nat) : Bool := decide (r.move n = .instr .tick)

/-- The number of `TICK` steps among the `k` moves from index `a` on. -/
def ticks (r : Run) (a k : Nat) : Nat := count r.ticksAt a k

/-- A step kind that is enabled in every state from some index on is taken after it. -/
def FairFor (r : Run) (enabled : State → Bool) (taken : Move → Bool) : Prop :=
  ∀ n, (∀ m, n ≤ m → enabled (r.state m) = true) → ∃ m, n ≤ m ∧ taken (r.move m) = true

/-- Weak fairness for `TICK`, `SERVICE_PB`, `SERVICE_CM` and the host step, none for `LATCH` (spec
R251). -/
structure WeaklyFair (r : Run) : Prop where
  tick : r.FairFor tickEnabled fun m => decide (m = .instr .tick)
  servicePb : r.FairFor pbEnabled fun m => decide (m = .instr .servicePb)
  serviceCm : r.FairFor cmEnabled fun m => decide (m = .instr .serviceCm)
  host : r.FairFor hostEnabled Move.isHost

/-- At most `lat` `TICK` steps occur while the flag stays pending; `none` is `LAT = ∞` (spec R15). -/
def ServedWithin (r : Run) (lat : Option Nat) (flag : State → Bool) : Prop :=
  match lat with
  | none => True
  | some l => ∀ a k, (∀ j, j ≤ k → flag (r.state (a + j)) = true) → r.ticks a k ≤ l

/-- The latency assumption of spec R15 for both events. -/
def Latency (r : Run) (lat : Option Nat) : Prop :=
  r.ServedWithin lat State.pbf ∧ r.ServedWithin lat State.cmf

end Run

/-- The flags that a `TICK` in `s` raises, read with no flag pending before it (spec R126). -/
def tickRaises (s : State) : BitVec 2 :=
  match exec .tick { s with status := 0#2 } with
  | .next t => t.status
  | .fault _ | .refused _ => 0#2

/-- A `TICK` in `s` generates a period-boundary event (spec R131). -/
def raisesPb (s : State) : Bool := (tickRaises s).getLsbD 0
/-- A `TICK` in `s` generates a compare-match event (spec R131). -/
def raisesCm (s : State) : Bool := (tickRaises s).getLsbD 1

/-- The written duty value of a colour (spec R104, R217). -/
def duty (c : Colour) (s : State) : Nat := (s.ccr.get (Config.fade.chmap c)).toNat

/-- The colour that a pair-fade leaves alone (spec R217). -/
def third : Pair → Colour
  | .p0 => .green
  | .p1 => .red
  | .p2 => .blue

/-- The duty values of pair `k`'s `FROM` and `TO` colours and of the third one. -/
abbrev Duties (k : Pair) (source target other : Nat) (s : State) : Prop :=
  duty k.source s = source ∧ duty k.target s = target ∧ duty (third k) s = other

/-- The period constant of the Fade Sequencer (spec R216). -/
def fadeP : Nat := Config.fade.period.toNat

/-- What holds at each position of the Fade Sequencer, whatever the other agents do (spec R211, R217,
R219, R220). -/
def FadeInv (s : State) : Prop :=
  match s.pc with
  | .other _ _ => False
  | .fade .init0 => s.configured = false ∧ s.ccr = { u0 := 0#16, u1 := 0#16, u2 := 0#16 }
  | .fade .init1 =>
    s.configured = true ∧ s.period = Config.fade.period ∧
      s.ccr = { u0 := 0#16, u1 := 0#16, u2 := 0#16 }
  | .fade (.run k i sub) =>
    s.configured = true ∧ s.period = Config.fade.period ∧ s.ctrl = 0xF#4 ∧ i ≤ fadeP ∧
      match sub with
      | .s0 =>
        if i = 0 then Duties k fadeP 0 0 s ∨ (k = .p0 ∧ Duties k 0 0 0 s)
        else Duties k (fadeP - (i - 1)) (i - 1) 0 s
      | .s1 => Duties k (fadeP - i) (i - 1) 0 s
      | .s2 => Duties k (fadeP - i) i 0 s

end Sys2Proof.Safety
end

