-- ==== Sys2Proof/WellFormed.lean ====
section
/-! DEFINITION. Which terms of `Instr` are instructions of the block. The field widths are in the
types; the one check left is that a `LATCH` label names one of the three compare units. -/

namespace Sys2Proof

/-- `LATCH` with `CH = 3` names no step (spec R94, conflict C12); every other term is one of the
words of spec R91 (`SET_DUTY` with `CH = 3` decodes and faults when executed). -/
def Instr.wellFormed : Instr → Bool
  | .latch ch => decide (ch ≠ 3#2)
  | .configure _ | .setDuty _ _ | .writeCtrl _ | .readCnt | .delay _ => true
  | .tick | .servicePb | .serviceCm => true

end Sys2Proof
end

