-- ==== Sys2Proof/Certificates/Slice0/Obligations.lean ====
section
/-! DEFINITION. The statements for the provers, each citing the rules of spec/ it formalises. A bit
drawn by the machine appears as `Config.freeBit`, of which nothing can be proved, or as a bound
variable of `execWith`, `latchWith`, `servicePbWith` or `serviceCmWith`. -/

open Sys2Proof Sys2Proof.Machine Sys2Proof.Safety

/-! ### Encoding -/

/-- The worked encodings, which the spec derives from its format (30_encoding.md section 5, the table
of R105): each text's word and the instruction it decodes to; `SET_DUTY 3, 1` decodes and executes as
`BAD_CHANNEL`. -/
def Obligations.WorkedEncodings : Prop :=
  (∀ x ∈ [(Instr.configure 1000#16, 0x100003E8#32), (.configure 4#16, 0x10000004#32),
      (.setDuty 0#2 2#16, 0x20000002#32), (.setDuty 1#2 1000#16, 0x240003E8#32),
      (.setDuty 2#2 3#16, 0x28000003#32), (.setDuty 3#2 1#16, 0x2C000001#32),
      (.writeCtrl 0xF#4, 0x3000000F#32), (.readCnt, 0x40000000#32), (.delay 5#16, 0x50000005#32),
      (.tick, 0x80000000#32), (.servicePb, 0x90000000#32), (.serviceCm, 0xA0000000#32),
      (.latch 2#2, 0xB8000000#32)],
    encode x.1 = x.2 ∧ decodeTableWord 32 x.2.toNat = some x.1) ∧
  ∀ s : State, s.live = true →
    exec (.setDuty 3#2 1#16) s = .next { s with fault := some (.badChannel, 0x2C000001#32) }

/-- Every well-formed instruction is what the decoder reads from its word: no bit of an operand is
dropped (R90 to R94, R102). -/
def Obligations.DecodeOfEncode : Prop :=
  ∀ i : Instr, i.wellFormed = true →
    decodeWord (encode i) = .ok i ∧ decodeTableWord 32 (encode i).toNat = some i

/-- Every word the decoder accepts is the word of the instruction it answers, which is well-formed:
each word has one meaning (R90 to R94, R97, R102). -/
def Obligations.EncodeOfDecode : Prop :=
  ∀ (w : Word) (i : Instr), decodeWord w = .ok i → encode i = w ∧ i.wellFormed = true

/-- R96: `decode_host`, over the four fields of the word read as numbers; and a word it finds illegal
is executed as `Fault(ILLEGAL_OP)`. -/
def Obligations.HostWordDecoding : Prop :=
  (∀ (w : Word) (op ch rsv imm : Nat), op < 16 → ch < 4 → rsv < 1024 → imm < 65536 →
    w.toNat = op * 2 ^ 28 + ch * 2 ^ 26 + rsv * 2 ^ 16 + imm →
    ∀ i : Instr, decodeHost w = .ok i ↔ rsv = 0 ∧
      ((op = 1 ∧ ch = 0 ∧ i = .configure (BitVec.ofNat 16 imm)) ∨
        (op = 2 ∧ i = .setDuty (BitVec.ofNat 2 ch) (BitVec.ofNat 16 imm)) ∨
        (op = 3 ∧ ch = 0 ∧ imm < 16 ∧ i = .writeCtrl (BitVec.ofNat 4 imm)) ∨
        (op = 4 ∧ ch = 0 ∧ imm = 0 ∧ i = .readCnt))) ∧
  ∀ w : Word, (∀ i, decodeHost w ≠ .ok i) → IllegalWord w

/-- R97: which host words are illegal, over the word's fields as numbers; each raises
`Fault(ILLEGAL_OP)` and does nothing else; every other word is a host operation; the all-zero word is
illegal. -/
def Obligations.IllegalHostWords : Prop :=
  (∀ w : Word,
    if w.toNat / 2 ^ 28 ∉ [1, 2, 3, 4] ∨ w.toNat / 2 ^ 16 % 1024 ≠ 0 ∨
        (w.toNat / 2 ^ 28 ∈ [1, 3, 4] ∧ w.toNat / 2 ^ 26 % 4 ≠ 0) ∨
        (w.toNat / 2 ^ 28 = 3 ∧ w.toNat / 2 ^ 4 % 4096 ≠ 0) ∨
        (w.toNat / 2 ^ 28 = 4 ∧ w.toNat % 65536 ≠ 0)
      then IllegalWord w
      else ∃ i, decodeHost w = .ok i ∧ byHost i = true) ∧
  IllegalWord 0x00000000#32

/-- The label words and the host's own word, over their fields as numbers (R91, R92, R94, R102): each
step has one word, `LATCH` one for each unit, and `LATCH` with `CH = 3` names no step. -/
def Obligations.LabelWordDecoding : Prop :=
  (∀ (w : Word) (i : Instr), decodeLabel w = .ok i ↔
    (w.toNat = 0x80000000 ∧ i = .tick) ∨ (w.toNat = 0x90000000 ∧ i = .servicePb) ∨
      (w.toNat = 0xA0000000 ∧ i = .serviceCm) ∨
      ∃ ch : BitVec 2, ch ≠ 3#2 ∧ w.toNat = 0xB0000000 + ch.toNat * 2 ^ 26 ∧ i = .latch ch) ∧
  (∀ (w : Word) (i : Instr), decodeOwn w = .ok i ↔
    ∃ n : Val, w.toNat = 0x50000000 + n.toNat ∧ i = .delay n) ∧
  decodeLabel 0xBC000000#32 = .error .noSuchStep

/-! ### Reset, the step, and who may move -/

/-- R270: every element of the block at its reset value, and the host at `Init0`. -/
def Obligations.ResetState : Prop :=
  State.reset.period = 0#16 ∧ State.reset.configured = false ∧ State.reset.cnt = 0#16 ∧
  State.reset.ctrl = 0#4 ∧ State.reset.cen = false ∧ State.reset.pbie = false ∧
  State.reset.cmie = false ∧ State.reset.gie = false ∧
  State.reset.pbf = false ∧ State.reset.cmf = false ∧
  (∀ i, State.reset.ccr.get i = 0#16 ∧ State.reset.act.get i = 0#16) ∧
  State.reset.estate = .deasserted ∧ State.reset.fault = none ∧ State.reset.refused = none ∧
  State.reset.pc = .fade .init0

/-- At reset the invariants the spec derives hold (10_state.md sections 11 and 12,
44_fade_sequencer.md section 3): that of the block, that of the Fade Sequencer, and every output
deasserted. The schedule is the model's own (log entry 1). -/
def Obligations.InvariantsAtReset : Prop :=
  BlockInv State.reset ∧ FadeInv State.reset ∧ State.reset.live = true ∧ State.reset.schedule = [] ∧
  out .hw0 State.reset = false ∧ out .hw1 State.reset = false ∧ swout State.reset = false

/-- A step executes the instruction its turn decodes to, in the state without that turn (R96, R102,
R210); a word that stands for the host itself and is no `DELAY` is read as R96 reads it, and an
illegal one faults (log entry 15, DEDUCED); a scheduled label word that names no step has no step
(R94; log entry 13, DEDUCED); a word placed by `withFetchWord` is the next one executed. The schedule
and `withFetchWord` are the model's own (log entries 1 and 5, DESIGN CHOICE). -/
def Obligations.StepRunsDecodedInstruction : Prop :=
  (∀ (s : State) (w : Word) (i : Instr) (rest : List Turn), s.live = true →
    (s.schedule = .label w :: rest → decodeLabel w = .ok i →
      step s = exec i { s with schedule := rest }) ∧
    (s.schedule = .host :: rest → s.pc.stmt? = some (.toBlock w) → decodeHost w = .ok i →
      step s = exec i { s with schedule := rest }) ∧
    (s.schedule = .host :: rest → s.pc.stmt? = some (.own w) → decodeOwn w = .ok i →
      step s = exec i { s with schedule := rest })) ∧
  (∀ (s : State) (w : Word) (rest : List Turn), s.live = true → s.schedule = .host :: rest →
    s.pc.stmt? = some (.own w) → (∀ i, decodeOwn w ≠ .ok i) →
    (∀ i, decodeHost w = .ok i → step s = exec i { s with schedule := rest }) ∧
    ((∀ i, decodeHost w ≠ .ok i) →
      step s = .next { s with schedule := rest, fault := some (.illegalOp, w) })) ∧
  (∀ (s : State) (w : Word) (rest : List Turn), s.live = true → s.schedule = .label w :: rest →
    (∀ i, decodeLabel w ≠ .ok i) → step s = .fault (.noSuchStep w)) ∧
  ∀ (s : State) (i : Instr), s.live = true → i.wellFormed = true →
    (byHost i = false → step (s.withFetchWord 32 (encode i).toNat) = exec i s) ∧
    (byHost i = true → ∃ st, step (s.withFetchWord 32 (encode i).toNat) =
      exec i { s with pc := s.pc.push st })

/-- R103: the steps of the machine and when each is enabled. A label's step is taken exactly when its
condition holds and nothing is recorded; the host's whenever nothing is recorded and its program is
not finished. -/
def Obligations.EnablingConditions : Prop :=
  ∀ s : State,
    ((∃ t, exec .tick s = .next t) ↔
      s.fault = none ∧ s.refused = none ∧ s.configured = true ∧ s.ctrl.getLsbD 0 = true) ∧
    (∀ ch : BitVec 2, (∃ t, exec (.latch ch) s = .next t) ↔
      s.fault = none ∧ s.refused = none ∧
        ((ch = 0#2 ∧ s.act.u0 ≠ s.ccr.u0) ∨ (ch = 1#2 ∧ s.act.u1 ≠ s.ccr.u1) ∨
          (ch = 2#2 ∧ s.act.u2 ≠ s.ccr.u2))) ∧
    ((∃ t, exec .servicePb s = .next t) ↔ s.fault = none ∧ s.refused = none ∧
      s.ctrl.getLsbD 3 = true ∧ s.ctrl.getLsbD 1 = true ∧ s.status.getLsbD 0 = true) ∧
    ((∃ t, exec .serviceCm s = .next t) ↔ s.fault = none ∧ s.refused = none ∧
      s.ctrl.getLsbD 3 = true ∧ s.ctrl.getLsbD 2 = true ∧ s.status.getLsbD 1 = true) ∧
    (∀ i : Instr, byHost i = true → ((∃ t, exec i s = .next t) ↔ s.fault = none ∧ s.refused = none)) ∧
    (hostEnabled s = true ↔ s.pc ≠ .other [] .ends)

/-- R251, R250: every step of the machine is one atomic move of some agent, apart from the schedule
and the count of free choices, which are the model's own (log entry 1). -/
def Obligations.StepIsSomeAgentsMove : Prop :=
  ∀ s t : State, step s = .next t → ∃ m,
    Moves { s with schedule := t.schedule, turns := t.turns } m t

/-- With nothing scheduled the machine stops only where no step of any agent is enabled (R251, R252),
and then under the name `runEnded` (log entry 13, DEDUCED). Where a fault or a refusal is recorded
the stop names it (log entry 7, DEDUCED). The names of the stops and the schedule (log entry 1,
DESIGN CHOICE) are the model's own. -/
def Obligations.FreeStepTakesAnEnabledMove : Prop :=
  (∀ s : State, s.live = true → s.schedule = [] →
    ((∃ t, step s = .next t) ↔ hostEnabled s = true ∨ tickEnabled s = true ∨ pbEnabled s = true ∨
      cmEnabled s = true ∨ ∃ i, latchEnabled i s = true) ∧
    ((¬ ∃ t, step s = .next t) → step s = .fault .runEnded)) ∧
  ∀ s : State, (∀ c w, s.fault = some (c, w) → step s = .fault (.halted c w)) ∧
    ∀ r w, s.fault = none → s.refused = some (r, w) → step s = .refused (.halted r w)

/-! ### The instructions -/

/-- R120, R121: `CONFIGURE P`. The word is legal exactly when `CH` and `RSV` are 0; `P = 0` faults,
before the check of a second `CONFIGURE`, which is refused and changes nothing else; otherwise the
four writes are made, and no flag is written. With `P = 1` a `TICK` that follows is a wrap. -/
def Obligations.ConfigureStartsTheCounter : Prop :=
  (∀ w : Word, w.toNat / 2 ^ 28 = 1 →
    (w.toNat / 2 ^ 16 % 4096 = 0 → decodeHost w = .ok (.configure (BitVec.ofNat 16 w.toNat))) ∧
    (w.toNat / 2 ^ 16 % 4096 ≠ 0 → IllegalWord w)) ∧
  (∀ (p : Val) (s : State), s.live = true →
    (p = 0#16 → exec (.configure p) s = .next { s with fault := some (.badPeriod, 0x10000000#32) }) ∧
    (p ≠ 0#16 → s.configured = true → exec (.configure p) s =
      .next { s with refused := some (.reconfigure, BitVec.ofNat 32 (0x10000000 + p.toNat)) }) ∧
    (p ≠ 0#16 → s.configured = false → exec (.configure p) s =
      .next { s with period := p, cnt := 0#16, ctrl := s.ctrl ||| 0b0001#4, configured := true,
                     pc := s.pc.next })) ∧
  ∀ s t u : State, s.configured = false → exec (.configure 1#16) s = .next t →
    exec .tick t = .next u → u.cnt = 0#16 ∧ u.pbf = true

/-- R123: `WRITE_CTRL m`. The word is legal exactly when `CH`, `RSV` and `IMM[15:4]` are 0; setting
`CEN` before `CONFIGURE` faults; otherwise the four bits are written and no flag is; clearing `CEN`
leaves no `TICK` enabled. -/
def Obligations.WriteCtrlWritesTheEnables : Prop :=
  (∀ w : Word, w.toNat / 2 ^ 28 = 3 →
    (w.toNat / 2 ^ 4 % 2 ^ 24 = 0 → decodeHost w = .ok (.writeCtrl (BitVec.ofNat 4 w.toNat))) ∧
    (w.toNat / 2 ^ 4 % 2 ^ 24 ≠ 0 → IllegalWord w)) ∧
  ∀ (m : BitVec 4) (s : State), s.live = true →
    (m.getLsbD 0 = true → s.configured = false → exec (.writeCtrl m) s =
      .next { s with fault := some (.notConfigured, BitVec.ofNat 32 (0x30000000 + m.toNat)) }) ∧
    ((m.getLsbD 0 = true → s.configured = true) → ∃ t, exec (.writeCtrl m) s = .next t ∧
      t = { s with ctrl := m, pc := s.pc.next } ∧
      t.cen = m.getLsbD 0 ∧ t.pbie = m.getLsbD 1 ∧ t.cmie = m.getLsbD 2 ∧ t.gie = m.getLsbD 3 ∧
      (m.getLsbD 0 = false → ∀ t', exec .tick t ≠ .next t'))

/-- R124: `READ_CNT` returns the counter zero-extended and has no side effect; it has one word;
before `CONFIGURE` it returns 0. -/
def Obligations.ReadCntReturnsTheCounter : Prop :=
  (∀ w : Word, w.toNat / 2 ^ 28 = 4 →
    (w = 0x40000000#32 → decodeHost w = .ok .readCnt) ∧ (w ≠ 0x40000000#32 → IllegalWord w)) ∧
  ∀ s : State, s.live = true → ∃ t, exec .readCnt s = .next t ∧
    t = { s with rd := t.rd, pc := s.pc.next } ∧ t.rd.toNat = s.cnt.toNat ∧
    (BlockInv s → s.configured = false → t.rd = 0#32)

/-- R200: `SET_DUTY i, v` writes `CCR[i]` whole, with any value, and nothing else; `CH = 3` faults;
the word is legal exactly when `RSV` is 0. -/
def Obligations.SetDutyWritesOneCompareValue : Prop :=
  (∀ w : Word, w.toNat / 2 ^ 28 = 2 →
    (w.toNat / 2 ^ 16 % 1024 = 0 → decodeHost w =
      .ok (.setDuty (BitVec.ofNat 2 (w.toNat / 2 ^ 26)) (BitVec.ofNat 16 w.toNat))) ∧
    (w.toNat / 2 ^ 16 % 1024 ≠ 0 → IllegalWord w)) ∧
  ∀ (v : Val) (s : State), s.live = true →
    exec (.setDuty 0#2 v) s = .next { s with ccr := { s.ccr with u0 := v }, pc := s.pc.next } ∧
    exec (.setDuty 1#2 v) s = .next { s with ccr := { s.ccr with u1 := v }, pc := s.pc.next } ∧
    exec (.setDuty 2#2 v) s = .next { s with ccr := { s.ccr with u2 := v }, pc := s.pc.next } ∧
    exec (.setDuty 3#2 v) s =
      .next { s with fault := some (.badChannel, BitVec.ofNat 32 (0x2C000000 + v.toNat)) }

/-- R214: `DELAY n` reads and writes no state of the block, whatever `n` is; only the host's position
moves. Its word is the host's, and is `Fault(ILLEGAL_OP)` when presented to the block. -/
def Obligations.DelayMovesOnlyTheHost : Prop :=
  (∀ n : Val, decodeOwn (BitVec.ofNat 32 (0x50000000 + n.toNat)) = .ok (.delay n) ∧
    IllegalWord (BitVec.ofNat 32 (0x50000000 + n.toNat))) ∧
  ∀ (n : Val) (s : State), s.live = true → exec (.delay n) s = .next { s with pc := s.pc.next }

/-- R126: `TICK`. Where it is enabled the counter wraps, loading every `ACT` and setting `PBF`, or
counts up; `CMF` is set when the new counter equals unit 2's new active value, which never happens
with that value at or above the period; a set flag stays set; nothing else changes. Where it is not
enabled it is not taken. -/
def Obligations.TickCountsAndRaisesEvents : Prop :=
  decodeLabel 0x80000000#32 = .ok .tick ∧
  ∀ s : State,
    (s.live = true → s.configured = true → s.cen = true → ∃ t, exec .tick s = .next t ∧
      t = { s with cnt := t.cnt, act := t.act, status := t.status } ∧
      (s.cnt = s.period - 1#16 → t.cnt = 0#16 ∧ t.act = s.ccr ∧ t.pbf = true) ∧
      (s.cnt ≠ s.period - 1#16 → t.cnt = s.cnt + 1#16 ∧ t.act = s.act ∧ t.pbf = s.pbf) ∧
      t.cmf = (s.cmf || decide (t.cnt = t.act.u2)) ∧
      (BlockInv s → s.period ≤ t.act.u2 → t.cmf = s.cmf)) ∧
    (¬ (s.live = true ∧ s.configured = true ∧ s.cen = true) → ∀ t, exec .tick s ≠ .next t)

/-- R151: `LATCH i` loads `ACT[i]`; for unit 2, when the new active value equals the counter of a
configured block, `CMF` may or may not be set, by a drawn bit; nothing else changes (the count of
draws is the model's own). Either outcome of the draw is a move. -/
def Obligations.LatchLoadsOneActiveValue : Prop :=
  (∀ ch : BitVec 2, ch ≠ 3#2 →
    decodeLabel (BitVec.ofNat 32 (0xB0000000 + ch.toNat * 2 ^ 26)) = .ok (.latch ch)) ∧
  ∀ (i : Chan) (s : State),
    (s.live = true → s.act.get i ≠ s.ccr.get i →
      (∃ t b, exec (.latch (chOf i)) s = .next t ∧
        t = { s with act := t.act, status := t.status, draws := t.draws } ∧
        t.act.get i = s.ccr.get i ∧ (∀ j, j ≠ i → t.act.get j = s.act.get j) ∧ t.pbf = s.pbf ∧
        t.cmf = (s.cmf || (decide (i = .sw ∧ s.configured = true ∧ s.ccr.u2 = s.cnt) && b))) ∧
      ∀ b, ∃ t, Moves s (.instr (.latch (chOf i))) t ∧
        t = { s with act := t.act, status := t.status, draws := t.draws } ∧
        t.act.get i = s.ccr.get i ∧ (∀ j, j ≠ i → t.act.get j = s.act.get j) ∧ t.pbf = s.pbf ∧
        t.cmf = (s.cmf || (decide (i = .sw ∧ s.configured = true ∧ s.ccr.u2 = s.cnt) && b))) ∧
    (¬ (s.live = true ∧ s.act.get i ≠ s.ccr.get i) → ∀ t, exec (.latch (chOf i)) s ≠ .next t)

/-- R172: `SERVICE_PB` clears `PBF` in every case and asserts exactly when the state is deasserted
and the counter is below the drawn duty value; nothing else changes (the count of draws is the
model's own). Either outcome of the draw is a move. -/
def Obligations.ServicePbAssertsBelowTheDuty : Prop :=
  decodeLabel 0x90000000#32 = .ok .servicePb ∧
  ∀ s : State,
    (s.live = true → s.gie = true → s.pbie = true → s.pbf = true →
      (∃ (t : State) (b : Bool), exec .servicePb s = .next t ∧ t = { s with
        status := t.status, draws := t.draws,
        estate := if s.estate = .deasserted ∧ s.cnt < (if b = true then s.ccr.u2 else s.act.u2)
          then .asserted else s.estate } ∧ t.pbf = false ∧ t.cmf = s.cmf) ∧
      ∀ b : Bool, ∃ t : State, Moves s (.instr .servicePb) t ∧ t = { s with
        status := t.status, draws := t.draws,
        estate := if s.estate = .deasserted ∧ s.cnt < (if b = true then s.ccr.u2 else s.act.u2)
          then .asserted else s.estate } ∧ t.pbf = false ∧ t.cmf = s.cmf) ∧
    (¬ (s.live = true ∧ s.gie = true ∧ s.pbie = true ∧ s.pbf = true) →
      ∀ t, exec .servicePb s ≠ .next t)

/-- R174: `SERVICE_CM` clears `CMF` in every case and deasserts exactly when the state is asserted
and the counter is not below the drawn duty value; nothing else changes (the count of draws is the
model's own). Either outcome of the draw is a move. -/
def Obligations.ServiceCmDeassertsFromTheDuty : Prop :=
  decodeLabel 0xA0000000#32 = .ok .serviceCm ∧
  ∀ s : State,
    (s.live = true → s.gie = true → s.cmie = true → s.cmf = true →
      (∃ (t : State) (b : Bool), exec .serviceCm s = .next t ∧ t = { s with
        status := t.status, draws := t.draws,
        estate := if s.estate = .asserted ∧ (if b = true then s.ccr.u2 else s.act.u2) ≤ s.cnt
          then .deasserted else s.estate } ∧ t.cmf = false ∧ t.pbf = s.pbf) ∧
      ∀ b : Bool, ∃ t : State, Moves s (.instr .serviceCm) t ∧ t = { s with
        status := t.status, draws := t.draws,
        estate := if s.estate = .asserted ∧ (if b = true then s.ccr.u2 else s.act.u2) ≤ s.cnt
          then .deasserted else s.estate } ∧ t.cmf = false ∧ t.pbf = s.pbf) ∧
    (¬ (s.live = true ∧ s.gie = true ∧ s.cmie = true ∧ s.cmf = true) →
      ∀ t, exec .serviceCm s ≠ .next t)

/-! ### Faults and refusals -/

/-- R231: a fault records the code and the host word, changes no other state, disables every step of
every agent from then on, and so is never cleared. -/
def Obligations.FaultStopsEveryAgent : Prop :=
  (∀ (c : FaultCode) (w : Word) (s : State), raiseFault c w s = { s with fault := some (c, w) }) ∧
  ∀ (s : State) (c : FaultCode) (w : Word), s.fault = some (c, w) →
    (∀ i t, exec i s ≠ .next t) ∧ (∀ b i t, execWith b i s ≠ .next t) ∧ (∀ t, step s ≠ .next t) ∧
    ∀ m t, ¬ Moves s m t

/-- R233: a refusal records the reason and the word, changes no other state and disables every step
of every agent; its only reason is a second `CONFIGURE`. -/
def Obligations.RefusalStopsEveryAgent : Prop :=
  (∀ (r : RefuseReason) (w : Word) (s : State), refuse r w s = { s with refused := some (r, w) }) ∧
  (∀ (s : State) (r : RefuseReason) (w : Word), s.refused = some (r, w) →
    (∀ i t, exec i s ≠ .next t) ∧ (∀ t, step s ≠ .next t) ∧ ∀ m t, ¬ Moves s m t) ∧
  ∀ (s t : State) (m : Move) (r : RefuseReason) (w : Word), s.refused = none → Moves s m t →
    t.refused = some (r, w) → r = .reconfigure ∧
      ∃ p, m = .instr (.configure p) ∧ p ≠ 0#16 ∧ s.configured = true ∧ w = encode (.configure p)

/-- R232: the complete list of the faults, their codes, who raises each and when, and the word that
is recorded. -/
def Obligations.FaultCodesComplete : Prop :=
  FaultCode.number .illegalOp = 1 ∧ FaultCode.number .badChannel = 2 ∧
  FaultCode.number .badPeriod = 3 ∧ FaultCode.number .notConfigured = 4 ∧
  ∀ (s t : State) (m : Move), s.fault = none → Moves s m t → ∀ (c : FaultCode) (w : Word),
    t.fault = some (c, w) ↔
      (c = .illegalOp ∧ m = .illegal w) ∨
      (c = .badChannel ∧ ∃ v, m = .instr (.setDuty 3#2 v) ∧ w = encode (.setDuty 3#2 v)) ∨
      (c = .badPeriod ∧ m = .instr (.configure 0#16) ∧ w = encode (.configure 0#16)) ∨
      (c = .notConfigured ∧ ∃ n, m = .instr (.writeCtrl n) ∧ w = encode (.writeCtrl n) ∧
        n.getLsbD 0 = true ∧ s.configured = false)

/-- R234: what is no fault, in any live state: a duty value above the period, `SET_DUTY` or
`READ_CNT` before `CONFIGURE`, `WRITE_CTRL` with `CEN = 0`, a service whose guard fails, and an
overrun, which leaves the flag set. -/
def Obligations.WhatIsNoFault : Prop :=
  ∀ s : State, s.live = true →
    (∀ (ch : BitVec 2) (v : Val), ch ≠ 3#2 → ∃ t, exec (.setDuty ch v) s = .next t ∧ t.live = true) ∧
    (∃ t, exec .readCnt s = .next t ∧ t.live = true) ∧
    (∀ m : BitVec 4, m.getLsbD 0 = false → ∃ t, exec (.writeCtrl m) s = .next t ∧ t.live = true) ∧
    (∀ t, (exec .servicePb s = .next t ∨ exec .serviceCm s = .next t ∨ exec .tick s = .next t) →
      t.live = true) ∧
    (∀ t, exec .tick s = .next t → (s.pbf = true → t.pbf = true) ∧ (s.cmf = true → t.cmf = true))

/-! ### Who writes what -/

/-- R81, which the spec marks as its own inference (20_memory.md section 6): the agents write
disjoint parts of the state, but for the pending flags, which the timer only sets and the interrupt
context only clears. -/
def Obligations.AgentsWriteDisjointParts : Prop :=
  ∀ (s t : State) (m : Move), Moves s m t →
    (m.isHost = true → t.act = s.act ∧ t.status = s.status ∧ t.estate = s.estate ∧
      (t.cnt ≠ s.cnt → ∃ p, m = .instr (.configure p))) ∧
    (m.isHost = false → t.period = s.period ∧ t.configured = s.configured ∧ t.ctrl = s.ctrl ∧
      t.ccr = s.ccr ∧ t.pc = s.pc ∧ t.rd = s.rd ∧ t.fault = s.fault ∧ t.refused = s.refused) ∧
    ((m = .instr .tick ∨ ∃ ch, m = .instr (.latch ch)) → t.estate = s.estate ∧
      (s.pbf = true → t.pbf = true) ∧ (s.cmf = true → t.cmf = true)) ∧
    ((m = .instr .servicePb ∨ m = .instr .serviceCm) → t.cnt = s.cnt ∧ t.act = s.act ∧
      (t.pbf = true → s.pbf = true) ∧ (t.cmf = true → s.cmf = true))

/-- R203, R157: only the host writes duty values: only `SET_DUTY` changes `CCR`, and it changes the
value of the unit it names alone, to the value it carries. No host operation reads `CCR` or `ACT`:
with other values in them it writes the same to everything else. -/
def Obligations.OnlyTheHostWritesDutyValues : Prop :=
  (∀ (s t : State) (m : Move) (j : Chan), Moves s m t → t.ccr.get j ≠ s.ccr.get j →
    m.isHost = true ∧ ∃ v, m = .instr (.setDuty (chOf j) v) ∧ t.ccr.get j = v) ∧
  ∀ (s t : State) (i : Instr) (c a : Bank), byHost i = true → exec i s = .next t →
    ∃ t', exec i { s with ccr := c, act := a } = .next t' ∧ t' = { t with ccr := t'.ccr, act := a }

/-- R34: `CONFIGURED` is 0 at reset, becomes 1 by a successful `CONFIGURE` alone, nothing clears it,
and it gates `TICK` and `WRITE_CTRL` with `CEN = 1`. -/
def Obligations.ConfiguredIsSetOnceAndGates : Prop :=
  State.reset.configured = false ∧
  (∀ (s t : State) (m : Move), Moves s m t → s.configured = true → t.configured = true) ∧
  (∀ (s t : State) (m : Move), Moves s m t → s.configured = false → t.configured = true →
    ∃ p, p ≠ 0#16 ∧ m = .instr (.configure p)) ∧
  (∀ (s : State) (p : Val), s.live = true → s.configured = false → p ≠ 0#16 →
    ∃ t, exec (.configure p) s = .next t ∧ t.configured = true) ∧
  ∀ s : State, s.live = true → s.configured = false →
    (∀ t, exec .tick s ≠ .next t) ∧
    ∀ m : BitVec 4, m.getLsbD 0 = true → ∃ t, exec (.writeCtrl m) s = .next t ∧
      t.fault = some (.notConfigured, encode (.writeCtrl m)) ∧ t.ctrl = s.ctrl

/-- The period never changes once the block is configured, and only a successful `CONFIGURE` writes
it (R33). -/
def Obligations.PeriodIsWrittenOnce : Prop :=
  ∀ (s t : State) (m : Move), Moves s m t →
    (s.configured = true → t.period = s.period) ∧
    (t.period ≠ s.period → m = .instr (.configure t.period) ∧ t.period ≠ 0#16 ∧ t.configured = true)

/-- R170: the state machine starts deasserted, and only `SERVICE_PB` and `SERVICE_CM` change
`ESTATE`: the first to asserted, the second to deasserted. -/
def Obligations.OnlyServicesChangeTheEdgeState : Prop :=
  State.reset.estate = .deasserted ∧
  ∀ (s t : State) (m : Move), Moves s m t → t.estate ≠ s.estate →
    (m = .instr .servicePb ∧ s.estate = .deasserted ∧ t.estate = .asserted) ∨
    (m = .instr .serviceCm ∧ s.estate = .asserted ∧ t.estate = .deasserted)

/-- An active compare value changes by its own `LATCH` or by a wrap and in no other way, and then
takes the written value (R44, R86, R150). -/
def Obligations.ActiveValueFollowsLatchOrWrap : Prop :=
  (∀ (s t : State) (m : Move) (j : Chan), Moves s m t → t.act.get j ≠ s.act.get j →
    t.act.get j = s.ccr.get j ∧
      (m = .instr (.latch (chOf j)) ∨ (m = .instr .tick ∧ s.cnt = s.period - 1#16))) ∧
  ∀ (s t : State) (j : Chan) (b : Bool),
    (execWith b (.latch (chOf j)) s = .next t → t.act.get j = s.ccr.get j) ∧
    (exec .tick s = .next t → s.cnt = s.period - 1#16 → t.act.get j = s.ccr.get j)

/-- R236, R127: a flag is set by the timer alone, whatever the enables; masking keeps it pending and
prevents its service; only its own service clears it; a masked pending flag can be serviced as soon
as it is unmasked. -/
def Obligations.PendingFlags : Prop :=
  (∀ (s t : State) (m : Move), Moves s m t →
    (s.pbf = true → t.pbf = false → m = .instr .servicePb) ∧
    (s.cmf = true → t.cmf = false → m = .instr .serviceCm) ∧
    (s.pbf = false → t.pbf = true → m = .instr .tick) ∧
    (s.cmf = false → t.cmf = true → m = .instr .tick ∨ m = .instr (.latch 2#2))) ∧
  (∀ (s t t' : State) (c : BitVec 4), c.getLsbD 0 = s.cen → exec .tick s = .next t →
    exec .tick { s with ctrl := c } = .next t' → t' = { t with ctrl := c }) ∧
  (∀ (s t : State) (b : Bool) (ch : BitVec 2) (c : BitVec 4), latchWith b ch s = .next t →
    latchWith b ch { s with ctrl := c } = .next { t with ctrl := c }) ∧
  (∀ (s : State) (m : BitVec 4), s.live = true → (m.getLsbD 0 = true → s.configured = true) →
    ∃ t, exec (.writeCtrl m) s = .next t ∧ t.status = s.status ∧
      ((m.getLsbD 3 = false ∨ m.getLsbD 1 = false) → ∀ t', exec .servicePb t ≠ .next t') ∧
      ((m.getLsbD 3 = false ∨ m.getLsbD 2 = false) → ∀ t', exec .serviceCm t ≠ .next t') ∧
      (m.getLsbD 3 = true → m.getLsbD 1 = true → s.pbf = true → ∃ t', exec .servicePb t = .next t') ∧
      (m.getLsbD 3 = true → m.getLsbD 2 = true → s.cmf = true → ∃ t', exec .serviceCm t = .next t'))

/-- R76: `READ_CNT` has no side effect; `SET_DUTY` and `WRITE_CTRL` done twice give what doing them
once gives; a second `CONFIGURE` is refused. The host's position moves at each. -/
def Obligations.IdempotentHostOperations : Prop :=
  (∀ s t : State, exec .readCnt s = .next t → t = { s with rd := t.rd, pc := t.pc }) ∧
  (∀ (s t u : State) (ch : BitVec 2) (v : Val), ch ≠ 3#2 → exec (.setDuty ch v) s = .next t →
    exec (.setDuty ch v) t = .next u → u = { t with pc := u.pc }) ∧
  (∀ (s t u : State) (m : BitVec 4), exec (.writeCtrl m) s = .next t → exec (.writeCtrl m) t = .next u →
    u = { t with pc := u.pc }) ∧
  ∀ (s t : State) (p q : Val), s.live = true → s.configured = false → p ≠ 0#16 → q ≠ 0#16 →
    exec (.configure p) s = .next t →
    exec (.configure q) t = .next { t with refused := some (.reconfigure, encode (.configure q)) }

/-! ### The invariant -/

/-- Every step keeps the invariant of R54, which the spec marks as its own inference (10_state.md
section 12). -/
def Obligations.StepKeepsTheInvariant : Prop :=
  ∀ s t : State, BlockInv s → step s = .next t → BlockInv t

/-- R54, which the spec marks as its own inference (10_state.md section 12): the invariants hold in
every state that a run from reset reaches, whatever program the host runs and whatever is drawn. -/
def Obligations.ReachableStatesMeetTheInvariants : Prop :=
  ∀ (pc0 : HostPc) (s : State), Reachable pc0 s →
    (s.configured = true → 1 ≤ s.period.toNat ∧ s.period.toNat ≤ 65535 ∧
      s.cnt.toNat < s.period.toNat) ∧
    (s.configured = false → s.period = 0#16 ∧ s.cnt = 0#16 ∧ s.cen = false) ∧
    (swout s = true ↔ s.estate = .asserted)

/-- The counter's arithmetic neither overflows nor underflows, for every state of the invariant
(R132, which the spec marks as its own inference, 40_counter.md section 5). -/
def Obligations.CounterNeverOverflows : Prop :=
  ∀ s : State, BlockInv s → s.configured = true →
    (s.period - 1#16).toNat = s.period.toNat - 1 ∧ 1 ≤ s.period.toNat ∧
    (s.cnt ≠ s.period - 1#16 → (s.cnt + 1#16).toNat = s.cnt.toNat + 1 ∧
      s.cnt.toNat + 1 < s.period.toNat) ∧
    ∀ t, exec .tick s = .next t → t.cnt.toNat = (s.cnt.toNat + 1) % s.period.toNat

/-! ### The counter over time -/

/-- R129, which the spec marks as its own inference (40_counter.md section 4): with `PERIOD = 1` the
counter is 0 and every `TICK` wraps, sets `PBF` and loads every `ACT`; it sets `CMF` exactly when the
new `ACT[2]` is 0. -/
def Obligations.PeriodOne : Prop :=
  ∀ s : State, BlockInv s → s.configured = true → s.period = 1#16 → s.cnt = 0#16 ∧
    (s.live = true → s.cen = true → ∃ t, exec .tick s = .next t) ∧
    ∀ t, exec .tick s = .next t → t.cnt = 0#16 ∧ t.pbf = true ∧ t.act = s.ccr ∧
      (s.cmf = false → (t.cmf = true ↔ t.act.u2 = 0#16))

/-- R130, which the spec marks as its own inference (40_counter.md section 4): while `CEN = 0` no
`TICK` occurs, the counter holds, `PBF` and `CMF` change only through services and `LATCH` (which may
set `CMF`), `ACT` changes only through `LATCH`, and a `LATCH` whose values differ is still taken.
R253: a host that never issues `CONFIGURE` leaves the counter stopped forever. -/
def Obligations.StoppedCounter : Prop :=
  (∀ s : State, s.cen = false → (∀ t, exec .tick s ≠ .next t) ∧
    (s.live = true → ∀ i, s.act.get i ≠ s.ccr.get i → ∃ t, exec (.latch (chOf i)) s = .next t) ∧
    ∀ (t : State) (m : Move), BlockInv s → Moves s m t → t.cnt = s.cnt ∧
      (t.pbf ≠ s.pbf → m = .instr .servicePb) ∧
      (t.cmf ≠ s.cmf → m = .instr .serviceCm ∨ (m = .instr (.latch 2#2) ∧ t.cmf = true)) ∧
      (t.act ≠ s.act → ∃ i, m = .instr (.latch (chOf i)))) ∧
  ∀ (r : Run) (a : Nat), BlockInv (r.state a) → (r.state a).configured = false →
    (∀ n p, a ≤ n → r.move n ≠ .instr (.configure p)) →
    ∀ n, a ≤ n → r.move n ≠ .instr .tick ∧ (r.state n).configured = false ∧
      (r.state n).cnt = 0#16

/-- R128, which the spec marks as its own inference (40_counter.md section 4): neither `CONFIGURE`
nor setting `CEN` raises a period-boundary event; from a counter at 0 with none pending, `PBF` stays
0 until the tick number `PERIOD`, which is a wrap and sets it. -/
def Obligations.FirstPeriodBoundary : Prop :=
  (∀ (s t : State) (p : Val), exec (.configure p) s = .next t → t.pbf = s.pbf) ∧
  (∀ (s t : State) (m : BitVec 4), exec (.writeCtrl m) s = .next t → t.pbf = s.pbf) ∧
  ∀ (r : Run) (a k : Nat), BlockInv (r.state a) → (r.state a).configured = true →
    (r.state a).cnt = 0#16 → (r.state a).pbf = false →
    (r.ticks a k < (r.state a).period.toNat →
      (r.state (a + k)).pbf = false ∧ (r.state (a + k)).cnt.toNat = r.ticks a k) ∧
    (r.ticks a k + 1 = (r.state a).period.toNat → r.ticksAt (a + k) = true →
      (r.state (a + k + 1)).pbf = true ∧ (r.state (a + k + 1)).cnt = 0#16)

/-- R131, which the spec marks as its own inference (40_counter.md section 4): among any `PERIOD`
successive ticks of a run through which `ACT[2]` is `d`, exactly one raises a period-boundary event,
the one that enters 0, and exactly one (`d < PERIOD`) or none (`d ≥ PERIOD`) a compare-match event,
the one that enters `d`. -/
def Obligations.EventsPerPeriod : Prop :=
  ∀ (r : Run) (a k : Nat) (d : Val), BlockInv (r.state a) → (r.state a).configured = true →
    (∀ j, j ≤ k → (r.state (a + j)).act.u2 = d) → r.ticks a k = (r.state a).period.toNat →
    Run.count (fun n => r.ticksAt n && raisesPb (r.state n)) a k = 1 ∧
    Run.count (fun n => r.ticksAt n && raisesCm (r.state n)) a k =
      (if d < (r.state a).period then 1 else 0) ∧
    ∀ j, j < k → r.ticksAt (a + j) = true →
      (raisesPb (r.state (a + j)) = true ↔ (r.state (a + j + 1)).cnt = 0#16) ∧
      (raisesCm (r.state (a + j)) = true ↔ (r.state (a + j + 1)).cnt = d)

/-! ### Outputs -/

/-- R45, R46, R47: the logical outputs and the physical levels, for every value of the open
polarities. -/
def Obligations.OutputsAndLevels : Prop :=
  ∀ s : State, (out .hw0 s = true ↔ s.cnt.toNat < s.act.u0.toNat) ∧
    (out .hw1 s = true ↔ s.cnt.toNat < s.act.u1.toNat) ∧ (swout s = true ↔ s.estate = .asserted) ∧
    level .hw0 s = (out .hw0 s ^^ Config.pol0) ∧ level .hw1 s = (out .hw1 s ^^ Config.pol1) ∧
    level .sw s = !swout s

/-- R153, which the spec marks as its own inference (41_hw_channel.md section 2): a hardware output
with `ACT[i] = 0` is never asserted; with `ACT[i] ≥ PERIOD` it is asserted in every configured state.
-/
def Obligations.BoundaryDutyValues : Prop :=
  ∀ (s : State) (i : Chan), i ≠ .sw →
    (s.act.get i = 0#16 → out i s = false) ∧
    (BlockInv s → s.configured = true → s.period ≤ s.act.get i → out i s = true)

/-- R154, which the spec marks as its own inference (41_hw_channel.md section 2): a hardware output
changes only in a `TICK` or in its own `LATCH`; in a tick that leaves `ACT[i] = d` with `0 < d <
PERIOD` it rises exactly on entering 0 and falls exactly on entering `d`. -/
def Obligations.HardwareOutputChanges : Prop :=
  ∀ (s t : State) (m : Move) (i : Chan), i ≠ .sw → BlockInv s → Moves s m t →
    (out i t ≠ out i s → m = .instr .tick ∨ m = .instr (.latch (chOf i))) ∧
    (m = .instr .tick → t.act.get i = s.act.get i → 0#16 < s.act.get i → s.act.get i < s.period →
      ((out i s = false ∧ out i t = true) ↔ t.cnt = 0#16) ∧
      ((out i s = true ∧ out i t = false) ↔ t.cnt = s.act.get i))

/-- R152, which the spec marks as its own inference (41_hw_channel.md section 2): in a period of a
run (from a counter at 0, through `PERIOD` ticks) in which `ACT[i]` is `d`, the output is asserted
exactly where the counter is below `d`, for `min(d, PERIOD)` ticks. -/
def Obligations.HardwareDutyLaw : Prop :=
  ∀ (r : Run) (a k : Nat) (i : Chan) (d : Val), i ≠ .sw → BlockInv (r.state a) →
    (r.state a).configured = true → (r.state a).cnt = 0#16 →
    (∀ j, j < k → (r.state (a + j)).act.get i = d) → r.ticks a k = (r.state a).period.toNat →
    (∀ j, j < k → (out i (r.state (a + j)) = true ↔ (r.state (a + j)).cnt < d)) ∧
    Run.count (fun n => r.ticksAt n && out i (r.state n)) a k = min d.toNat (r.state a).period.toNat

/-- R155: no step of the interrupt context reads or writes the hardware channels' registers or
outputs; the hardware channels read nothing of `ESTATE`, `PBF` or `CMF`; and neither of them reads
another unit's registers. -/
def Obligations.HardwareChannelsAreIndependent : Prop :=
  (∀ (s t : State) (b : Bool) (i : Instr), (i = .servicePb ∨ i = .serviceCm) →
    execWith b i s = .next t →
    t.ccr = s.ccr ∧ t.act = s.act ∧ out .hw0 t = out .hw0 s ∧ out .hw1 t = out .hw1 s ∧
    ∀ c0 c1 a0 a1 : Val,
      execWith b i { s with ccr := { s.ccr with u0 := c0, u1 := c1 },
                            act := { s.act with u0 := a0, u1 := a1 } } =
        .next { t with ccr := { s.ccr with u0 := c0, u1 := c1 },
                       act := { s.act with u0 := a0, u1 := a1 } }) ∧
  (∀ (s : State) (i : Chan) (e : EState) (f : BitVec 2),
    out i { s with estate := e, status := f } = out i s) ∧
  (∀ (s t : State) (b : Bool) (i : Instr) (e : EState) (f : BitVec 2),
    (i = .tick ∨ ∃ ch, i = .latch ch) → execWith b i s = .next t →
    ∃ t', execWith b i { s with estate := e, status := f } = .next t' ∧
      t'.cnt = t.cnt ∧ t'.act = t.act) ∧
  ∀ (s t : State) (b : Bool) (i : Instr) (u : Chan) (c a : Bank), u ≠ .sw →
    (i = .tick ∨ i = .latch (chOf u)) → c.get u = s.ccr.get u → a.get u = s.act.get u →
    execWith b i s = .next t → ∃ t', execWith b i { s with ccr := c, act := a } = .next t' ∧
      t'.cnt = t.cnt ∧ t'.act.get u = t.act.get u ∧ out u t' = out u t

/-! ### The software channel -/

/-- R176: a service clears its flag whether or not its guard holds, and a failed guard changes
nothing else (the count of draws is the model's own). -/
def Obligations.FailedGuardStillAcknowledges : Prop :=
  ∀ (s t : State) (b : Bool),
    (servicePbWith b s = .next t → t.pbf = false ∧ t.cmf = s.cmf ∧
      (¬ (s.estate = .deasserted ∧ s.cnt < drawnDuty b s) →
        t = { s with status := s.status &&& 0b10#2, draws := t.draws })) ∧
    (serviceCmWith b s = .next t → t.cmf = false ∧ t.pbf = s.pbf ∧
      (¬ (s.estate = .asserted ∧ drawnDuty b s ≤ s.cnt) →
        t = { s with status := s.status &&& 0b01#2, draws := t.draws }))

/-- R175: the value a service compares against is the written or the active one of unit 2, and either
is possible in each service; where the two are equal there is one outcome; they are equal but between
a `SET_DUTY 2` and the following `LATCH 2` or wrap. -/
def Obligations.ServiceDrawsWrittenOrActive : Prop :=
  (∀ s t : State, Moves s (.instr .servicePb) t → ∃ d, (d = s.ccr.u2 ∨ d = s.act.u2) ∧
    t.estate = if s.estate = .deasserted ∧ s.cnt < d then .asserted else s.estate) ∧
  (∀ (s : State) (d : Val), s.live = true → pbEnabled s = true → (d = s.ccr.u2 ∨ d = s.act.u2) →
    ∃ t, Moves s (.instr .servicePb) t ∧
      t.estate = if s.estate = .deasserted ∧ s.cnt < d then .asserted else s.estate) ∧
  (∀ s t : State, Moves s (.instr .serviceCm) t → ∃ d, (d = s.ccr.u2 ∨ d = s.act.u2) ∧
    t.estate = if s.estate = .asserted ∧ d ≤ s.cnt then .deasserted else s.estate) ∧
  (∀ (s : State) (d : Val), s.live = true → cmEnabled s = true → (d = s.ccr.u2 ∨ d = s.act.u2) →
    ∃ t, Moves s (.instr .serviceCm) t ∧
      t.estate = if s.estate = .asserted ∧ d ≤ s.cnt then .deasserted else s.estate) ∧
  (∀ s t t' : State, s.ccr.u2 = s.act.u2 →
    (Moves s (.instr .servicePb) t → Moves s (.instr .servicePb) t' → t = t') ∧
    (Moves s (.instr .serviceCm) t → Moves s (.instr .serviceCm) t' → t = t')) ∧
  State.reset.ccr.u2 = State.reset.act.u2 ∧
  ∀ (s t : State) (m : Move), Moves s m t →
    (s.ccr.u2 = s.act.u2 → t.ccr.u2 ≠ t.act.u2 → ∃ v, m = .instr (.setDuty 2#2 v)) ∧
    (m = .instr (.latch 2#2) → t.ccr.u2 = t.act.u2) ∧
    (m = .instr .tick → s.cnt = s.period - 1#16 → t.ccr.u2 = t.act.u2)

/-- R178, which the spec marks as its own inference (42_sw_channel.md section 3): a `SERVICE_PB`
(from `s` to `t`) and a `SERVICE_CM` (from `u` to `v`) taken anywhere with the same counter and the
same drawn duty value change `ESTATE` at most once across the two: the first only below the duty
value, the second only from it on. So do two consecutive ones, in either order. -/
def Obligations.NoDoubleToggle : Prop :=
  (∀ (s t u v : State) (b b' : Bool), servicePbWith b s = .next t → serviceCmWith b' u = .next v →
    (t.estate ≠ s.estate → s.cnt < drawnDuty b s) ∧
    (v.estate ≠ u.estate → drawnDuty b' u ≤ u.cnt) ∧
    (s.cnt = u.cnt → drawnDuty b s = drawnDuty b' u → t.estate = s.estate ∨ v.estate = u.estate)) ∧
  ∀ (s t u : State) (b b' : Bool), drawnDuty b s = drawnDuty b' s →
    ((servicePbWith b s = .next t ∧ serviceCmWith b' t = .next u) ∨
      (serviceCmWith b s = .next t ∧ servicePbWith b' t = .next u)) →
    t.estate = s.estate ∨ u.estate = t.estate

/-- R185, which the spec marks as its own inference (42_sw_channel.md section 3): `SERVICE_PB` in the
asserted state and `SERVICE_CM` in the deasserted state never change `ESTATE`. -/
def Obligations.ServicesAreIdempotent : Prop :=
  ∀ (s t : State) (b : Bool),
    (s.estate = .asserted → servicePbWith b s = .next t → t.estate = .asserted) ∧
    (s.estate = .deasserted → serviceCmWith b s = .next t → t.estate = .deasserted)

/-- R179, which the spec marks as its own inference (42_sw_channel.md section 3): with `CCR[2] =
ACT[2] = 0` no `SERVICE_PB` asserts, a run that starts deasserted stays so, a `SERVICE_CM` always
leaves the pin deasserted, and the wrap is a compare match. -/
def Obligations.DutyZeroIsAlwaysOff : Prop :=
  (∀ (s t : State) (b : Bool), s.ccr.u2 = 0#16 → s.act.u2 = 0#16 →
    (servicePbWith b s = .next t → t.estate = s.estate) ∧
    (serviceCmWith b s = .next t → t.estate = .deasserted) ∧
    (exec .tick s = .next t → s.cnt = s.period - 1#16 → t.cmf = true)) ∧
  ∀ (r : Run) (a : Nat), (∀ n, a ≤ n → (r.state n).ccr.u2 = 0#16 ∧ (r.state n).act.u2 = 0#16) →
    (r.state a).estate = .deasserted → ∀ n, a ≤ n → swout (r.state n) = false

/-- R180, which the spec marks as its own inference (42_sw_channel.md section 3): with `CCR[2] =
ACT[2] = d ≥ PERIOD` throughout, no tick raises a compare match and none becomes pending; the first
serviced period-boundary event asserts, and the pin then stays asserted, also where a compare match
of an earlier duty value is still pending and is serviced. -/
def Obligations.DutyAtThePeriodIsAlwaysOn : Prop :=
  ∀ (r : Run) (a : Nat) (d : Val), BlockInv (r.state a) → (r.state a).configured = true →
    (r.state a).period ≤ d →
    (∀ n, a ≤ n → (r.state n).ccr.u2 = d ∧ (r.state n).act.u2 = d) →
    (∀ n, a ≤ n → r.ticksAt n = true → raisesCm (r.state n) = false) ∧
    (∀ n m, a ≤ n → (r.state n).cmf = false → n ≤ m → (r.state m).cmf = false) ∧
    ∀ n m, a ≤ n → r.move n = .instr .servicePb → n < m → swout (r.state m) = true

/-- Self-healing (R181, R182, which the spec marks as its own inferences, 42_sw_channel.md section
3): every serviced period-boundary event with the pin deasserted and the counter below both duty
values asserts, whatever happened before, and every serviced compare-match event with the pin
asserted and the counter not below either deasserts; R182: a late one does not. -/
def Obligations.EveryServicedEventReattempts : Prop :=
  ∀ (s t : State) (b : Bool),
    (servicePbWith b s = .next t → s.cnt < s.ccr.u2 → s.cnt < s.act.u2 → t.estate = .asserted) ∧
    (serviceCmWith b s = .next t → s.ccr.u2 ≤ s.cnt → s.act.u2 ≤ s.cnt → t.estate = .deasserted) ∧
    (servicePbWith b s = .next t → s.ccr.u2 ≤ s.cnt → s.act.u2 ≤ s.cnt → t.estate = s.estate) ∧
    (serviceCmWith b s = .next t → s.cnt < s.ccr.u2 → s.cnt < s.act.u2 → t.estate = s.estate)

/-- First period (R183, which the spec marks as its own inference, 42_sw_channel.md section 3): from
a deasserted pin and no period-boundary event pending, the pin stays deasserted in every state of a
run in which fewer than `PERIOD` ticks have followed a counter at 0. -/
def Obligations.FirstPeriodIsDeasserted : Prop :=
  ∀ (r : Run) (a k : Nat), BlockInv (r.state a) → (r.state a).configured = true →
    (r.state a).cnt = 0#16 → (r.state a).pbf = false → (r.state a).estate = .deasserted →
    r.ticks a k < (r.state a).period.toNat → swout (r.state (a + k)) = false

/-- Agreement with the hardware waveform under prompt service (R184, which the spec marks as its own
inference, 42_sw_channel.md section 3; `LAT = 0` is its premise): in a run with every pending event
serviced before the next `TICK`, and `CCR[2] = ACT[2] = d` from some index on, after the first wrap
from there the software output in every state with no event pending is what a hardware channel with
active value `d` outputs. -/
def Obligations.SoftwareMatchesHardwareWaveform : Prop :=
  ∀ (r : Run) (a w : Nat) (d : Val), r.Latency (some 0) → BlockInv (r.state a) →
    (∀ n, a ≤ n → (r.state n).ccr.u2 = d ∧ (r.state n).act.u2 = d) → a ≤ w →
    r.move w = .instr .tick → (r.state w).cnt = (r.state w).period - 1#16 →
    ∀ n, w < n → (r.state n).pbf = false → (r.state n).cmf = false →
      swout (r.state n) = decide ((r.state n).cnt < d) ∧
      ∀ i, (r.state n).act.get i = d → swout (r.state n) = out i (r.state n)

/-- Liveness of an admitted run (R251): a pending period-boundary event that stays enabled is
serviced, and likewise a compare match. -/
def Obligations.FairRunServicesPendingEvents : Prop :=
  ∀ (r : Run) (n : Nat), r.WeaklyFair → (∀ m, n ≤ m → (r.state m).gie = true) →
    ((∀ m, n ≤ m → (r.state m).pbie = true) → (r.state n).pbf = true →
      ∃ m, n ≤ m ∧ r.move m = .instr .servicePb) ∧
    ((∀ m, n ≤ m → (r.state m).cmie = true) → (r.state n).cmf = true →
      ∃ m, n ≤ m ∧ r.move m = .instr .serviceCm)

/-- Liveness of the counter (R125, R251): in an admitted run whose counter stays enabled, every value
below the period is entered again and again. -/
def Obligations.FairRunCountsForever : Prop :=
  ∀ (r : Run) (n : Nat) (c : Val), r.WeaklyFair → BlockInv (r.state n) → (r.state n).configured = true →
    (∀ m, n ≤ m → (r.state m).cen = true) → c < (r.state n).period →
    ∃ m, n ≤ m ∧ r.move m = .instr .tick ∧ (r.state (m + 1)).cnt = c

/-! ### The Fade Sequencer -/

/-- R211, R212: the program's statements and its positions, for every period, delay and mapping; and
the pseudo-operations it is written in (R104), also under the default `CHMAP`. -/
def Obligations.FadeProgramText : Prop :=
  encode irqOn = 0x3000000F#32 ∧ encode irqOff = 0x30000001#32 ∧
  (∀ v, setColour Config.defaultChmap .green v = .setDuty 0#2 v ∧
    setColour Config.defaultChmap .blue v = .setDuty 1#2 v ∧
    setColour Config.defaultChmap .red v = .setDuty 2#2 v) ∧
  (∀ (f : Colour → Chan) (c : Colour) (v : Val), setColour f c v = .setDuty (chOf (f c)) v) ∧
  ∀ (f : FadeParams) (k : Pair) (i : Nat), i ≤ f.period.toNat →
    FadePc.instr f .init0 = .configure f.period ∧
    FadePc.instr f .init1 = .writeCtrl 0xF#4 ∧
    FadePc.next f.period.toNat .init0 = .init1 ∧
    FadePc.next f.period.toNat .init1 = .run .p0 0 .s0 ∧
    (∃ v : Val, v.toNat = f.period.toNat - i ∧
      FadePc.instr f (.run k i .s0) = .setDuty (chOf (f.chmap k.source)) v) ∧
    (∃ v : Val, v.toNat = i ∧
      FadePc.instr f (.run k i .s1) = .setDuty (chOf (f.chmap k.target)) v) ∧
    FadePc.instr f (.run k i .s2) = .delay f.delay ∧
    FadePc.next f.period.toNat (.run k i .s0) = .run k i .s1 ∧
    FadePc.next f.period.toNat (.run k i .s1) = .run k i .s2 ∧
    FadePc.next f.period.toNat (.run k i .s2) =
      (if i < f.period.toNat then .run k (i + 1) .s0 else .run k.succ 0 .s0) ∧
    [Pair.p0, .p1, .p2].map Pair.source = [.red, .blue, .green] ∧
    [Pair.p0, .p1, .p2].map Pair.target = [.blue, .green, .red] ∧
    [Pair.p0, .p1, .p2].map Pair.succ = [.p1, .p2, .p0]

/-- The host's sequence of operations is the same in every run (R222, which the spec marks as its own
inference, 44_fade_sequencer.md section 3): a move of another agent leaves the position, a successful
host move takes it to the next one, and two host moves from the same position are the same operation,
whatever the block's states are. -/
def Obligations.HostSequenceIsFixed : Prop :=
  (∀ (s t : State) (m : Move), Moves s m t →
    (m.isHost = false → t.pc = s.pc) ∧ (m.isHost = true → t.live = true → t.pc = s.pc.next)) ∧
  ∀ (s t s' t' : State) (m m' : Move), Moves s m t → Moves s' m' t' → m.isHost = true →
    m'.isHost = true → s.pc = s'.pc → m = m'

/-- R217, R218, R219, which the spec marks as its own inferences (44_fade_sequencer.md section 3):
the Fade Sequencer's invariant, which gives the duty values at each position, is kept by every move
of every agent and by every step, and no fault or refusal is recorded from it; so in every state that
it reaches from reset, however the other agents' steps fall between its own: after the two writes of
step `i` of pair `k` the duty values are `P − i` and `i`, their sum is `P`, and the third colour's is
0; between the two writes the sum is `P − 1` or `P`; so each pair-fade ends with its target at `P`
and the others at 0, and a cycle ends as it began. -/
def Obligations.FadeDutyValues : Prop :=
  (∀ (s t : State) (m : Move), FadeInv s → Moves s m t → FadeInv t ∧ t.live = true) ∧
  (∀ s t : State, FadeInv s → step s = .next t → FadeInv t) ∧
  ∀ s : State, Reachable (.fade .init0) s → ∀ (k : Pair) (i : Nat),
    (s.pc = .fade (.run k i .s2) → i ≤ fadeP ∧
      duty k.source s = fadeP - i ∧ duty k.target s = i ∧ duty (third k) s = 0 ∧
      duty k.source s + duty k.target s = fadeP ∧
      (i = 0 → duty k.source s = fadeP ∧ duty k.target s = 0) ∧
      (i = fadeP → duty k.source s = 0 ∧ duty k.target s = fadeP)) ∧
    (s.pc = .fade (.run k i .s1) →
      duty k.source s + duty k.target s = fadeP - 1 ∨ duty k.source s + duty k.target s = fadeP) ∧
    (s.pc = .fade (.run .p0 0 .s2) → duty .red s = fadeP ∧ duty .blue s = 0 ∧ duty .green s = 0)

/-- The Fade Sequencer runs forever (R213, R230, R252): from every state of its invariant the
machine, choosing freely among the enabled steps, answers a next state with nothing recorded, in
which the invariants hold again. -/
def Obligations.FadeSequencerRunsForever : Prop :=
  ∀ s : State, BlockInv s → FadeInv s → s.live = true → s.schedule = [] →
    ∃ t, step s = .next t ∧ BlockInv t ∧ FadeInv t ∧ t.live = true ∧ t.schedule = []
end

