-- ==== Sys2Proof/Laws/Config.lean ====
section
/-! SUPPORT. What holds of the open parameters whatever their values are. -/

namespace Sys2Proof.Laws

/-- `CHMAP` is one to one (spec R12). -/
theorem chmap_injective : Function.Injective Config.chmap := by
  have h : Function.Injective Config.defaultChmap := by
    intro a b; cases a <;> cases b <;> simp [Config.defaultChmap]
  exact h.comp Config.colourPerm.injective

/-- The Fade Sequencer's period is legal (spec R11, R216). -/
theorem fade_period_toNat : Config.fade.period.toNat = Config.fadePeriodPred.val + 1 := by
  have := Config.fadePeriodPred.isLt
  simp only [Config.fade, BitVec.toNat_ofNat]
  omega

theorem fade_period_ne_zero : Config.fade.period ≠ 0#16 := by
  intro h
  have := fade_period_toNat
  rw [h] at this
  simp at this

@[simp] theorem fade_chmap : Config.fade.chmap = Config.chmap := rfl

end Sys2Proof.Laws
end

