-- ==== Sys2Proof/Laws/Decode.lean ====
section
/-! SUPPORT. The fields of a packed word, and what each decoder does: it rejects, or it answers the
instruction whose encoding the word is. -/

namespace Sys2Proof.Laws

@[simp] theorem opField_pack (op : BitVec 4) (ch : BitVec 2) (imm : Val) :
    opField (pack op ch imm) = op := by
  apply BitVec.eq_of_getLsbD_eq
  intro i hi
  simp only [opField, pack, BitVec.getLsbD_extractLsb', BitVec.getLsbD_append, hi, decide_true,
    Bool.true_and]
  have h1 : ¬ 28 + i < 16 := by omega
  have h2 : ¬ 28 + i - 16 < 10 := by omega
  have h3 : ¬ 28 + i - 16 - 10 < 2 := by omega
  simp only [h1, h2, h3, if_false]
  congr 1
  omega

@[simp] theorem chField_pack (op : BitVec 4) (ch : BitVec 2) (imm : Val) :
    chField (pack op ch imm) = ch := by
  apply BitVec.eq_of_getLsbD_eq
  intro i hi
  simp only [chField, pack, BitVec.getLsbD_extractLsb', BitVec.getLsbD_append, hi, decide_true,
    Bool.true_and]
  have h1 : ¬ 26 + i < 16 := by omega
  have h2 : ¬ 26 + i - 16 < 10 := by omega
  have h3 : 26 + i - 16 - 10 < 2 := by omega
  simp only [h1, h2, h3, if_false, if_true]
  congr 1
  omega

@[simp] theorem rsvField_pack (op : BitVec 4) (ch : BitVec 2) (imm : Val) :
    rsvField (pack op ch imm) = 0#10 := by
  apply BitVec.eq_of_getLsbD_eq
  intro i hi
  simp only [rsvField, pack, BitVec.getLsbD_extractLsb', BitVec.getLsbD_append, hi, decide_true,
    Bool.true_and]
  have h1 : ¬ 16 + i < 16 := by omega
  have h2 : 16 + i - 16 < 10 := by omega
  simp only [h1, h2, if_false, if_true]
  simp

@[simp] theorem immField_pack (op : BitVec 4) (ch : BitVec 2) (imm : Val) :
    immField (pack op ch imm) = imm := by
  apply BitVec.eq_of_getLsbD_eq
  intro i hi
  simp only [immField, pack, BitVec.getLsbD_extractLsb', BitVec.getLsbD_append, hi, decide_true,
    Bool.true_and, Nat.zero_add, if_true]

theorem immHigh_eq (w : Word) : immHigh w = (immField w).extractLsb' 4 12 := by
  apply BitVec.eq_of_getLsbD_eq
  intro i hi
  simp only [immHigh, immField, BitVec.getLsbD_extractLsb', hi, decide_true, Bool.true_and,
    Nat.zero_add]
  have h : 4 + i < 16 := by omega
  simp [h]

theorem immCtrl_eq (w : Word) : immCtrl w = (immField w).extractLsb' 0 4 := by
  apply BitVec.eq_of_getLsbD_eq
  intro i hi
  simp only [immCtrl, immField, BitVec.getLsbD_extractLsb', hi, decide_true, Bool.true_and,
    Nat.zero_add]
  have h : i < 16 := by omega
  simp [h]

/-- A word with `RSV = 0` is the packing of its other three fields. -/
theorem pack_fields (w : Word) (h : rsvField w = 0#10) :
    pack (opField w) (chField w) (immField w) = w := by
  apply BitVec.eq_of_getLsbD_eq
  intro i hi
  have hr : ∀ j, j < 10 → w.getLsbD (16 + j) = false := fun j hj => by
    have := congrArg (fun v => v.getLsbD j) h
    simpa [rsvField, hj] using this
  simp only [opField, chField, immField, pack, BitVec.getLsbD_extractLsb', BitVec.getLsbD_append]
  by_cases h1 : i < 16
  · simp [h1]
  by_cases h2 : i - 16 < 10
  · have := hr (i - 16) h2
    rw [show 16 + (i - 16) = i by omega] at this
    simp [h1, h2, this]
  by_cases h3 : i - 16 - 10 < 2
  · simp only [h1, h2, h3, if_false, if_true, decide_true, Bool.true_and]
    congr 1
    omega
  · have h4 : i - 16 - 10 - 2 < 4 := by omega
    simp only [h1, h2, h3, h4, if_false, decide_true, Bool.true_and]
    congr 1
    omega

@[simp] theorem fixedZero_eq_ok (ok : Bool) (i j : Instr) :
    fixedZero ok i = .ok j ↔ ok = true ∧ i = j := by
  cases ok <;> simp [fixedZero]

/-- What a word that `decode_host` accepts is (spec R96). -/
theorem decodeHost_ok {w : Word} {i : Instr} (h : decodeHost w = .ok i) :
    rsvField w = 0#10 ∧
      ((opField w = 0x1#4 ∧ chField w = 0#2 ∧ i = .configure (immField w)) ∨
        (opField w = 0x2#4 ∧ i = .setDuty (chField w) (immField w)) ∨
        (opField w = 0x3#4 ∧ chField w = 0#2 ∧ immHigh w = 0#12 ∧ i = .writeCtrl (immCtrl w)) ∨
        (opField w = 0x4#4 ∧ chField w = 0#2 ∧ immField w = 0#16 ∧ i = .readCnt)) := by
  unfold decodeHost at h
  split at h
  · cases h
  rename_i hr
  refine ⟨by simpa using hr, ?_⟩
  split at h
  · simp at h; exact .inl ⟨‹_›, h.1, h.2.symm⟩
  split at h
  · cases h; exact .inr (.inl ⟨‹_›, rfl⟩)
  split at h
  · simp at h; exact .inr (.inr (.inl ⟨‹_›, h.1.1, h.1.2, h.2.symm⟩))
  split at h
  · simp at h; exact .inr (.inr (.inr ⟨‹_›, h.1.1, h.1.2, h.2.symm⟩))
  · cases h

/-- What a word that the host executes itself is (spec R214). -/
theorem decodeOwn_ok {w : Word} {i : Instr} (h : decodeOwn w = .ok i) :
    rsvField w = 0#10 ∧ opField w = 0x5#4 ∧ chField w = 0#2 ∧ i = .delay (immField w) := by
  unfold decodeOwn at h
  split at h
  · cases h
  rename_i hr
  split at h
  · simp at h; exact ⟨by simpa using hr, ‹_›, h.1, h.2.symm⟩
  · cases h

/-- A `DELAY` word that stands for the host itself is that `DELAY`. -/
theorem decodeHostOwn_delay {w : Word} {i : Instr} (h : decodeOwn w = .ok i) :
    decodeHostOwn w = .ok i := by simp [decodeHostOwn, h]

/-- Any other word that stands for the host itself is read as spec R96 reads it. -/
theorem decodeHostOwn_host {w : Word} (h : ∀ i, decodeOwn w ≠ .ok i) :
    decodeHostOwn w = decodeHost w := by
  unfold decodeHostOwn
  split
  · exact absurd ‹_› (h _)
  · rfl

/-- What a word that stands for the host itself can be. -/
theorem decodeHostOwn_ok {w : Word} {i : Instr} (h : decodeHostOwn w = .ok i) :
    decodeOwn w = .ok i ∨ decodeHost w = .ok i := by
  unfold decodeHostOwn at h
  split at h
  · exact .inl (by rw [‹decodeOwn w = _›, h])
  · exact .inr h

/-- What a step-label word is (spec R91, R102). -/
theorem decodeLabel_ok {w : Word} {i : Instr} (h : decodeLabel w = .ok i) :
    rsvField w = 0#10 ∧
      ((opField w = 0x8#4 ∧ chField w = 0#2 ∧ immField w = 0#16 ∧ i = .tick) ∨
        (opField w = 0x9#4 ∧ chField w = 0#2 ∧ immField w = 0#16 ∧ i = .servicePb) ∨
        (opField w = 0xA#4 ∧ chField w = 0#2 ∧ immField w = 0#16 ∧ i = .serviceCm) ∨
        (opField w = 0xB#4 ∧ chField w ≠ 3#2 ∧ immField w = 0#16 ∧ i = .latch (chField w))) := by
  unfold decodeLabel at h
  split at h
  · cases h
  rename_i hr
  refine ⟨by simpa using hr, ?_⟩
  split at h
  · simp at h; exact .inl ⟨‹_›, h.1.1, h.1.2, h.2.symm⟩
  split at h
  · simp at h; exact .inr (.inl ⟨‹_›, h.1.1, h.1.2, h.2.symm⟩)
  split at h
  · simp at h; exact .inr (.inr (.inl ⟨‹_›, h.1.1, h.1.2, h.2.symm⟩))
  split at h
  · split at h
    · cases h
    · simp at h; exact .inr (.inr (.inr ⟨‹_›, ‹_›, h.1, h.2.symm⟩))
  · cases h

@[simp] theorem opField_encode (i : Instr) : opField (encode i) = opcode i := by simp [encode]
@[simp] theorem chField_encode (i : Instr) : chField (encode i) = chOperand i := by simp [encode]
@[simp] theorem rsvField_encode (i : Instr) : rsvField (encode i) = 0#10 := by simp [encode]
@[simp] theorem immField_encode (i : Instr) : immField (encode i) = immOperand i := by simp [encode]

/-- The two parts of `WRITE_CTRL`'s operand (spec R93). -/
theorem ctrl_operand : ∀ m : BitVec 4,
    (0#12 ++ m : BitVec 16).extractLsb' 4 12 = 0#12 ∧ (0#12 ++ m : BitVec 16).extractLsb' 0 4 = m := by
  decide

/-- An operand with `IMM[15:4] = 0` is its low four bits (spec R93). -/
theorem ctrl_operand_eq (v : BitVec 16) (h : v.extractLsb' 4 12 = 0#12) :
    (0#12 ++ v.extractLsb' 0 4 : BitVec 16) = v := by
  have hz : v.toNat / 16 = 0 := by
    have := congrArg BitVec.toNat h
    have hv := v.isLt
    simp only [BitVec.extractLsb'_toNat, Nat.shiftRight_eq_div_pow, BitVec.toNat_ofNat] at this
    omega
  apply BitVec.eq_of_toNat_eq
  rw [BitVec.toNat_append]
  simp
  omega

end Sys2Proof.Laws
end

