-- ==== Sys2Proof/Laws/State.lean ====
section
/-! SUPPORT. One lemma per field of `State` per update of it: an update writes the fields named on its
right-hand sides and leaves every other field alone. -/

namespace Sys2Proof.Laws

open Sys2Proof.Machine

variable (s : State)

@[simp] theorem raisePbf_period : s.raisePbf.period = s.period := rfl
@[simp] theorem raisePbf_cnt : s.raisePbf.cnt = s.cnt := rfl
@[simp] theorem raisePbf_ctrl : s.raisePbf.ctrl = s.ctrl := rfl
@[simp] theorem raisePbf_status : s.raisePbf.status = s.status ||| 0b01#2 := rfl
@[simp] theorem raisePbf_ccr : s.raisePbf.ccr = s.ccr := rfl
@[simp] theorem raisePbf_act : s.raisePbf.act = s.act := rfl
@[simp] theorem raisePbf_estate : s.raisePbf.estate = s.estate := rfl
@[simp] theorem raisePbf_configured : s.raisePbf.configured = s.configured := rfl
@[simp] theorem raisePbf_fault : s.raisePbf.fault = s.fault := rfl
@[simp] theorem raisePbf_refused : s.raisePbf.refused = s.refused := rfl
@[simp] theorem raisePbf_pc : s.raisePbf.pc = s.pc := rfl
@[simp] theorem raisePbf_rd : s.raisePbf.rd = s.rd := rfl
@[simp] theorem raisePbf_schedule : s.raisePbf.schedule = s.schedule := rfl
@[simp] theorem raisePbf_turns : s.raisePbf.turns = s.turns := rfl
@[simp] theorem raisePbf_draws : s.raisePbf.draws = s.draws := rfl

@[simp] theorem raiseCmf_period : s.raiseCmf.period = s.period := rfl
@[simp] theorem raiseCmf_cnt : s.raiseCmf.cnt = s.cnt := rfl
@[simp] theorem raiseCmf_ctrl : s.raiseCmf.ctrl = s.ctrl := rfl
@[simp] theorem raiseCmf_status : s.raiseCmf.status = s.status ||| 0b10#2 := rfl
@[simp] theorem raiseCmf_ccr : s.raiseCmf.ccr = s.ccr := rfl
@[simp] theorem raiseCmf_act : s.raiseCmf.act = s.act := rfl
@[simp] theorem raiseCmf_estate : s.raiseCmf.estate = s.estate := rfl
@[simp] theorem raiseCmf_configured : s.raiseCmf.configured = s.configured := rfl
@[simp] theorem raiseCmf_fault : s.raiseCmf.fault = s.fault := rfl
@[simp] theorem raiseCmf_refused : s.raiseCmf.refused = s.refused := rfl
@[simp] theorem raiseCmf_pc : s.raiseCmf.pc = s.pc := rfl
@[simp] theorem raiseCmf_rd : s.raiseCmf.rd = s.rd := rfl
@[simp] theorem raiseCmf_schedule : s.raiseCmf.schedule = s.schedule := rfl
@[simp] theorem raiseCmf_turns : s.raiseCmf.turns = s.turns := rfl
@[simp] theorem raiseCmf_draws : s.raiseCmf.draws = s.draws := rfl

@[simp] theorem clearPbf_period : s.clearPbf.period = s.period := rfl
@[simp] theorem clearPbf_cnt : s.clearPbf.cnt = s.cnt := rfl
@[simp] theorem clearPbf_ctrl : s.clearPbf.ctrl = s.ctrl := rfl
@[simp] theorem clearPbf_status : s.clearPbf.status = s.status &&& 0b10#2 := rfl
@[simp] theorem clearPbf_ccr : s.clearPbf.ccr = s.ccr := rfl
@[simp] theorem clearPbf_act : s.clearPbf.act = s.act := rfl
@[simp] theorem clearPbf_estate : s.clearPbf.estate = s.estate := rfl
@[simp] theorem clearPbf_configured : s.clearPbf.configured = s.configured := rfl
@[simp] theorem clearPbf_fault : s.clearPbf.fault = s.fault := rfl
@[simp] theorem clearPbf_refused : s.clearPbf.refused = s.refused := rfl
@[simp] theorem clearPbf_pc : s.clearPbf.pc = s.pc := rfl
@[simp] theorem clearPbf_rd : s.clearPbf.rd = s.rd := rfl
@[simp] theorem clearPbf_schedule : s.clearPbf.schedule = s.schedule := rfl
@[simp] theorem clearPbf_turns : s.clearPbf.turns = s.turns := rfl
@[simp] theorem clearPbf_draws : s.clearPbf.draws = s.draws := rfl

@[simp] theorem clearCmf_period : s.clearCmf.period = s.period := rfl
@[simp] theorem clearCmf_cnt : s.clearCmf.cnt = s.cnt := rfl
@[simp] theorem clearCmf_ctrl : s.clearCmf.ctrl = s.ctrl := rfl
@[simp] theorem clearCmf_status : s.clearCmf.status = s.status &&& 0b01#2 := rfl
@[simp] theorem clearCmf_ccr : s.clearCmf.ccr = s.ccr := rfl
@[simp] theorem clearCmf_act : s.clearCmf.act = s.act := rfl
@[simp] theorem clearCmf_estate : s.clearCmf.estate = s.estate := rfl
@[simp] theorem clearCmf_configured : s.clearCmf.configured = s.configured := rfl
@[simp] theorem clearCmf_fault : s.clearCmf.fault = s.fault := rfl
@[simp] theorem clearCmf_refused : s.clearCmf.refused = s.refused := rfl
@[simp] theorem clearCmf_pc : s.clearCmf.pc = s.pc := rfl
@[simp] theorem clearCmf_rd : s.clearCmf.rd = s.rd := rfl
@[simp] theorem clearCmf_schedule : s.clearCmf.schedule = s.schedule := rfl
@[simp] theorem clearCmf_turns : s.clearCmf.turns = s.turns := rfl
@[simp] theorem clearCmf_draws : s.clearCmf.draws = s.draws := rfl

@[simp] theorem raiseFault_period (c : FaultCode) (w : Word) : (raiseFault c w s).period = s.period := rfl
@[simp] theorem raiseFault_cnt (c : FaultCode) (w : Word) : (raiseFault c w s).cnt = s.cnt := rfl
@[simp] theorem raiseFault_ctrl (c : FaultCode) (w : Word) : (raiseFault c w s).ctrl = s.ctrl := rfl
@[simp] theorem raiseFault_status (c : FaultCode) (w : Word) : (raiseFault c w s).status = s.status := rfl
@[simp] theorem raiseFault_ccr (c : FaultCode) (w : Word) : (raiseFault c w s).ccr = s.ccr := rfl
@[simp] theorem raiseFault_act (c : FaultCode) (w : Word) : (raiseFault c w s).act = s.act := rfl
@[simp] theorem raiseFault_estate (c : FaultCode) (w : Word) : (raiseFault c w s).estate = s.estate := rfl
@[simp] theorem raiseFault_configured (c : FaultCode) (w : Word) : (raiseFault c w s).configured = s.configured := rfl
@[simp] theorem raiseFault_fault (c : FaultCode) (w : Word) : (raiseFault c w s).fault = some (c, w) := rfl
@[simp] theorem raiseFault_refused (c : FaultCode) (w : Word) : (raiseFault c w s).refused = s.refused := rfl
@[simp] theorem raiseFault_pc (c : FaultCode) (w : Word) : (raiseFault c w s).pc = s.pc := rfl
@[simp] theorem raiseFault_rd (c : FaultCode) (w : Word) : (raiseFault c w s).rd = s.rd := rfl
@[simp] theorem raiseFault_schedule (c : FaultCode) (w : Word) : (raiseFault c w s).schedule = s.schedule := rfl
@[simp] theorem raiseFault_turns (c : FaultCode) (w : Word) : (raiseFault c w s).turns = s.turns := rfl
@[simp] theorem raiseFault_draws (c : FaultCode) (w : Word) : (raiseFault c w s).draws = s.draws := rfl

@[simp] theorem refuse_period (r : RefuseReason) (w : Word) : (refuse r w s).period = s.period := rfl
@[simp] theorem refuse_cnt (r : RefuseReason) (w : Word) : (refuse r w s).cnt = s.cnt := rfl
@[simp] theorem refuse_ctrl (r : RefuseReason) (w : Word) : (refuse r w s).ctrl = s.ctrl := rfl
@[simp] theorem refuse_status (r : RefuseReason) (w : Word) : (refuse r w s).status = s.status := rfl
@[simp] theorem refuse_ccr (r : RefuseReason) (w : Word) : (refuse r w s).ccr = s.ccr := rfl
@[simp] theorem refuse_act (r : RefuseReason) (w : Word) : (refuse r w s).act = s.act := rfl
@[simp] theorem refuse_estate (r : RefuseReason) (w : Word) : (refuse r w s).estate = s.estate := rfl
@[simp] theorem refuse_configured (r : RefuseReason) (w : Word) : (refuse r w s).configured = s.configured := rfl
@[simp] theorem refuse_fault (r : RefuseReason) (w : Word) : (refuse r w s).fault = s.fault := rfl
@[simp] theorem refuse_refused (r : RefuseReason) (w : Word) : (refuse r w s).refused = some (r, w) := rfl
@[simp] theorem refuse_pc (r : RefuseReason) (w : Word) : (refuse r w s).pc = s.pc := rfl
@[simp] theorem refuse_rd (r : RefuseReason) (w : Word) : (refuse r w s).rd = s.rd := rfl
@[simp] theorem refuse_schedule (r : RefuseReason) (w : Word) : (refuse r w s).schedule = s.schedule := rfl
@[simp] theorem refuse_turns (r : RefuseReason) (w : Word) : (refuse r w s).turns = s.turns := rfl
@[simp] theorem refuse_draws (r : RefuseReason) (w : Word) : (refuse r w s).draws = s.draws := rfl

@[simp] theorem returnData_period (v : Word) : (returnData v s).period = s.period := rfl
@[simp] theorem returnData_cnt (v : Word) : (returnData v s).cnt = s.cnt := rfl
@[simp] theorem returnData_ctrl (v : Word) : (returnData v s).ctrl = s.ctrl := rfl
@[simp] theorem returnData_status (v : Word) : (returnData v s).status = s.status := rfl
@[simp] theorem returnData_ccr (v : Word) : (returnData v s).ccr = s.ccr := rfl
@[simp] theorem returnData_act (v : Word) : (returnData v s).act = s.act := rfl
@[simp] theorem returnData_estate (v : Word) : (returnData v s).estate = s.estate := rfl
@[simp] theorem returnData_configured (v : Word) : (returnData v s).configured = s.configured := rfl
@[simp] theorem returnData_fault (v : Word) : (returnData v s).fault = s.fault := rfl
@[simp] theorem returnData_refused (v : Word) : (returnData v s).refused = s.refused := rfl
@[simp] theorem returnData_pc (v : Word) : (returnData v s).pc = s.pc := rfl
@[simp] theorem returnData_rd (v : Word) : (returnData v s).rd = v := rfl
@[simp] theorem returnData_schedule (v : Word) : (returnData v s).schedule = s.schedule := rfl
@[simp] theorem returnData_turns (v : Word) : (returnData v s).turns = s.turns := rfl
@[simp] theorem returnData_draws (v : Word) : (returnData v s).draws = s.draws := rfl

@[simp] theorem afterDraw_period : (afterDraw s).period = s.period := rfl
@[simp] theorem afterDraw_cnt : (afterDraw s).cnt = s.cnt := rfl
@[simp] theorem afterDraw_ctrl : (afterDraw s).ctrl = s.ctrl := rfl
@[simp] theorem afterDraw_status : (afterDraw s).status = s.status := rfl
@[simp] theorem afterDraw_ccr : (afterDraw s).ccr = s.ccr := rfl
@[simp] theorem afterDraw_act : (afterDraw s).act = s.act := rfl
@[simp] theorem afterDraw_estate : (afterDraw s).estate = s.estate := rfl
@[simp] theorem afterDraw_configured : (afterDraw s).configured = s.configured := rfl
@[simp] theorem afterDraw_fault : (afterDraw s).fault = s.fault := rfl
@[simp] theorem afterDraw_refused : (afterDraw s).refused = s.refused := rfl
@[simp] theorem afterDraw_pc : (afterDraw s).pc = s.pc := rfl
@[simp] theorem afterDraw_rd : (afterDraw s).rd = s.rd := rfl
@[simp] theorem afterDraw_schedule : (afterDraw s).schedule = s.schedule := rfl
@[simp] theorem afterDraw_turns : (afterDraw s).turns = s.turns := rfl
@[simp] theorem afterDraw_draws : (afterDraw s).draws = s.draws + 1 := rfl

@[simp] theorem hostDone_period : (hostDone s).period = s.period := rfl
@[simp] theorem hostDone_cnt : (hostDone s).cnt = s.cnt := rfl
@[simp] theorem hostDone_ctrl : (hostDone s).ctrl = s.ctrl := rfl
@[simp] theorem hostDone_status : (hostDone s).status = s.status := rfl
@[simp] theorem hostDone_ccr : (hostDone s).ccr = s.ccr := rfl
@[simp] theorem hostDone_act : (hostDone s).act = s.act := rfl
@[simp] theorem hostDone_estate : (hostDone s).estate = s.estate := rfl
@[simp] theorem hostDone_configured : (hostDone s).configured = s.configured := rfl
@[simp] theorem hostDone_fault : (hostDone s).fault = s.fault := rfl
@[simp] theorem hostDone_refused : (hostDone s).refused = s.refused := rfl
@[simp] theorem hostDone_pc : (hostDone s).pc = s.pc.next := rfl
@[simp] theorem hostDone_rd : (hostDone s).rd = s.rd := rfl
@[simp] theorem hostDone_schedule : (hostDone s).schedule = s.schedule := rfl
@[simp] theorem hostDone_turns : (hostDone s).turns = s.turns := rfl
@[simp] theorem hostDone_draws : (hostDone s).draws = s.draws := rfl

@[simp] theorem startCounter_period (p : Val) : (startCounter p s).period = p := rfl
@[simp] theorem startCounter_cnt (p : Val) : (startCounter p s).cnt = 0#16 := rfl
@[simp] theorem startCounter_ctrl (p : Val) : (startCounter p s).ctrl = setCen s.ctrl := rfl
@[simp] theorem startCounter_status (p : Val) : (startCounter p s).status = s.status := rfl
@[simp] theorem startCounter_ccr (p : Val) : (startCounter p s).ccr = s.ccr := rfl
@[simp] theorem startCounter_act (p : Val) : (startCounter p s).act = s.act := rfl
@[simp] theorem startCounter_estate (p : Val) : (startCounter p s).estate = s.estate := rfl
@[simp] theorem startCounter_configured (p : Val) : (startCounter p s).configured = true := rfl
@[simp] theorem startCounter_fault (p : Val) : (startCounter p s).fault = s.fault := rfl
@[simp] theorem startCounter_refused (p : Val) : (startCounter p s).refused = s.refused := rfl
@[simp] theorem startCounter_pc (p : Val) : (startCounter p s).pc = s.pc := rfl
@[simp] theorem startCounter_rd (p : Val) : (startCounter p s).rd = s.rd := rfl
@[simp] theorem startCounter_schedule (p : Val) : (startCounter p s).schedule = s.schedule := rfl
@[simp] theorem startCounter_turns (p : Val) : (startCounter p s).turns = s.turns := rfl
@[simp] theorem startCounter_draws (p : Val) : (startCounter p s).draws = s.draws := rfl

end Sys2Proof.Laws
end

