-- ==== Sys2Proof/Laws/Ops.lean ====
section
/-! SUPPORT. One lemma per shared operation that says what it can do: the flags, the registers of a
unit, the two guards of every step, and the halves of `TICK`. -/

namespace Sys2Proof.Laws

open Sys2Proof.Machine

variable {s t : State}

/-! ### Flags -/

@[simp] theorem pbf_raisePbf : s.raisePbf.pbf = true := by simp [State.pbf]
@[simp] theorem cmf_raisePbf : s.raisePbf.cmf = s.cmf := by simp [State.cmf]
@[simp] theorem pbf_raiseCmf : s.raiseCmf.pbf = s.pbf := by simp [State.pbf]
@[simp] theorem cmf_raiseCmf : s.raiseCmf.cmf = true := by simp [State.cmf]
@[simp] theorem pbf_clearPbf : s.clearPbf.pbf = false := by simp [State.pbf]
@[simp] theorem cmf_clearPbf : s.clearPbf.cmf = s.cmf := by simp [State.cmf]
@[simp] theorem pbf_clearCmf : s.clearCmf.pbf = s.pbf := by simp [State.pbf]
@[simp] theorem cmf_clearCmf : s.clearCmf.cmf = false := by simp [State.cmf]

/-- The fields and the flags of a state read one register each. -/
theorem pbf_congr (h : s.status = t.status) : s.pbf = t.pbf := by simp [State.pbf, h]
theorem cmf_congr (h : s.status = t.status) : s.cmf = t.cmf := by simp [State.cmf, h]
theorem cen_congr (h : s.ctrl = t.ctrl) : s.cen = t.cen := by simp [State.cen, h]

@[simp] theorem pbf_hostDone : (hostDone s).pbf = s.pbf := rfl
@[simp] theorem cmf_hostDone : (hostDone s).cmf = s.cmf := rfl
@[simp] theorem pbf_raiseFault {c : FaultCode} {w : Word} : (raiseFault c w s).pbf = s.pbf := rfl
@[simp] theorem cmf_raiseFault {c : FaultCode} {w : Word} : (raiseFault c w s).cmf = s.cmf := rfl
@[simp] theorem pbf_refuse {r : RefuseReason} {w : Word} : (refuse r w s).pbf = s.pbf := rfl
@[simp] theorem cmf_refuse {r : RefuseReason} {w : Word} : (refuse r w s).cmf = s.cmf := rfl
@[simp] theorem pbf_startCounter {p : Val} : (startCounter p s).pbf = s.pbf := rfl
@[simp] theorem cmf_startCounter {p : Val} : (startCounter p s).cmf = s.cmf := rfl
@[simp] theorem pbf_returnData {v : Word} : (returnData v s).pbf = s.pbf := rfl
@[simp] theorem cmf_returnData {v : Word} : (returnData v s).cmf = s.cmf := rfl

/-- `setCen` sets bit 0 and keeps the others (spec R120). -/
theorem setCen_bits : ∀ c : BitVec 4, (setCen c).getLsbD 0 = true ∧
    (setCen c).getLsbD 1 = c.getLsbD 1 ∧ (setCen c).getLsbD 2 = c.getLsbD 2 ∧
    (setCen c).getLsbD 3 = c.getLsbD 3 := by
  decide

/-! ### Registers of a unit -/

@[simp] theorem get_set_same (b : Bank) (i : Chan) (v : Val) : (b.set i v).get i = v := by
  cases i <;> rfl

theorem get_set_other (b : Bank) (i j : Chan) (v : Val) (h : j ≠ i) : (b.set i v).get j = b.get j := by
  cases i <;> cases j <;> first | rfl | exact absurd rfl h

theorem get_set (b : Bank) (i j : Chan) (v : Val) :
    (b.set i v).get j = if j = i then v else b.get j := by
  by_cases h : j = i
  · subst h; simp
  · simp [h, get_set_other b i j v h]

@[simp] theorem chan_chOf (i : Chan) : chan? (chOf i) = some i := by cases i <;> rfl

theorem chan_some : ∀ {ch : BitVec 2} {i : Chan}, chan? ch = some i ↔ ch = chOf i := by
  intro ch i
  constructor
  · unfold chan?
    split
    · intro h; cases h; assumption
    split
    · intro h; cases h; assumption
    split
    · intro h; cases h; assumption
    · intro h; cases h
  · rintro rfl; simp

theorem chan_none : ∀ ch : BitVec 2, chan? ch = none ↔ ch = 3#2 := by decide

/-- The duty value a service draws is the written or the active one (spec R175). -/
theorem drawnDuty_cases (b : Bool) (s : State) :
    drawnDuty b s = s.ccr.u2 ∨ drawnDuty b s = s.act.u2 := by
  unfold drawnDuty
  split
  · exact .inr rfl
  · cases b <;> simp

@[simp] theorem drawnDuty_true (s : State) : drawnDuty true s = s.ccr.u2 := by
  unfold drawnDuty; split <;> simp_all

@[simp] theorem drawnDuty_false (s : State) : drawnDuty false s = s.act.u2 := by
  unfold drawnDuty; split <;> simp_all

/-! ### Guards -/

theorem live_iff : s.live = true ↔ s.fault = none ∧ s.refused = none := by
  simp [State.live]

theorem whenLive_of_live (h : s.live = true) (k : Result) : whenLive s k = k := by
  obtain ⟨h1, h2⟩ := live_iff.1 h
  simp [whenLive, h1, h2]

/-- A next state, the answered state on the left. -/
theorem next_eq {s' : State} : (.next s' : Result) = .next t ↔ t = s' := by
  constructor
  · intro h; cases h; rfl
  · rintro rfl; rfl

/-- A guarded answer that is a next state comes from a live state. -/
theorem whenLive_next {k : Result} : whenLive s k = .next t ↔ s.live = true ∧ k = .next t := by
  unfold whenLive State.live
  cases s.fault <;> cases s.refused <;> simp

/-- A step label that is taken was enabled. -/
theorem guarded_next {i : Instr} {en : Bool} {s' : State} :
    guarded i en s s' = .next t ↔ s.live = true ∧ en = true ∧ t = s' := by
  unfold guarded
  rw [whenLive_next]
  cases en
  · simp
  · simp; exact fun _ => eq_comm

/-! ### The meanings, inverted -/

theorem execConfigure_next {p : Val} : execConfigure p s = .next t ↔ s.live = true ∧
    ((p = 0#16 ∧ t = raiseFault .badPeriod (encode (.configure p)) s) ∨
      (p ≠ 0#16 ∧ s.configured = true ∧ t = refuse .reconfigure (encode (.configure p)) s) ∨
      (p ≠ 0#16 ∧ s.configured = false ∧ t = hostDone (startCounter p s))) := by
  unfold execConfigure
  rw [whenLive_next]
  by_cases hp : p = 0#16
  · simp [hp]; exact fun _ => eq_comm
  · cases s.configured <;> simp [hp] <;> exact fun _ => eq_comm

theorem execSetDuty_next {ch : BitVec 2} {v : Val} : execSetDuty ch v s = .next t ↔ s.live = true ∧
    ((∃ i, ch = chOf i ∧ t = hostDone { s with ccr := s.ccr.set i v }) ∨
      (ch = 3#2 ∧ t = raiseFault .badChannel (encode (.setDuty ch v)) s)) := by
  unfold execSetDuty
  rw [whenLive_next]
  cases h : chan? ch with
  | none =>
    have h3 := (chan_none ch).1 h
    have h4 : ∀ i, ch ≠ chOf i := fun i hi => by rw [chan_some.2 hi] at h; cases h
    simp only [next_eq]
    constructor
    · rintro ⟨hl, ht⟩; exact ⟨hl, .inr ⟨h3, ht⟩⟩
    · rintro ⟨hl, ⟨i, hi, _⟩ | ⟨_, ht⟩⟩
      · exact absurd hi (h4 i)
      · exact ⟨hl, ht⟩
  | some i =>
    have hi := chan_some.1 h
    have h3 : ch ≠ 3#2 := fun h3 => by rw [(chan_none ch).2 h3] at h; cases h
    simp only [Host.Outcome.next.injEq]
    constructor
    · rintro ⟨hl, rfl⟩; exact ⟨hl, .inl ⟨i, hi, rfl⟩⟩
    · rintro ⟨hl, ⟨j, hj, rfl⟩ | ⟨h3', _⟩⟩
      · have : i = j := by have := chan_some.2 hj; rw [h] at this; exact Option.some.inj this
        subst this; exact ⟨hl, rfl⟩
      · exact absurd h3' h3

theorem execWriteCtrl_next {m : BitVec 4} : execWriteCtrl m s = .next t ↔ s.live = true ∧
    ((m.getLsbD 0 = true ∧ s.configured = false ∧
        t = raiseFault .notConfigured (encode (.writeCtrl m)) s) ∨
      ((m.getLsbD 0 = true → s.configured = true) ∧ t = hostDone { s with ctrl := m })) := by
  unfold execWriteCtrl
  rw [whenLive_next]
  cases hm : m.getLsbD 0 <;> cases hc : s.configured <;> simp <;> exact fun _ => eq_comm

theorem execReadCnt_next : execReadCnt s = .next t ↔
    s.live = true ∧ t = hostDone (returnData (zext32 s.cnt) s) := by
  unfold execReadCnt; rw [whenLive_next, next_eq]

theorem execDelay_next {n : Val} : execDelay n s = .next t ↔ s.live = true ∧ t = hostDone s := by
  unfold execDelay; rw [whenLive_next, next_eq]

theorem execTick_next : execTick s = .next t ↔
    s.live = true ∧ tickEnabled s = true ∧ t = compareMatch (count s) := guarded_next

theorem servicePbWith_next {b : Bool} : servicePbWith b s = .next t ↔ s.live = true ∧
    pbEnabled s = true ∧ t = assertEdge (drawnDuty b s) (afterDraw s.clearPbf) := guarded_next

theorem serviceCmWith_next {b : Bool} : serviceCmWith b s = .next t ↔ s.live = true ∧
    cmEnabled s = true ∧ t = deassertEdge (drawnDuty b s) (afterDraw s.clearCmf) := guarded_next

theorem latchWith_next {b : Bool} {ch : BitVec 2} : latchWith b ch s = .next t ↔ s.live = true ∧
    ∃ i, ch = chOf i ∧ latchEnabled i s = true ∧ t = latchUnit b i s := by
  unfold latchWith
  cases h : chan? ch with
  | none =>
    simp only [guarded_next]
    constructor
    · rintro ⟨_, h', _⟩; cases h'
    · rintro ⟨_, i, hi, _⟩; rw [chan_some.2 hi] at h; cases h
  | some i =>
    simp only [guarded_next]
    constructor
    · rintro ⟨hl, he, ht⟩; exact ⟨hl, i, chan_some.1 h, he, ht⟩
    · rintro ⟨hl, j, hj, he, ht⟩
      have : i = j := by have := chan_some.2 hj; rw [h] at this; exact Option.some.inj this
      subst this; exact ⟨hl, he, ht⟩

/-- Each meaning is its form with the drawn bit given (spec R18 `draw`). -/
theorem exec_eq_execWith (i : Instr) (s : State) : exec i s = Safety.execWith (drawnBit s) i s := by
  cases i <;> rfl

/-! ### The halves of `TICK` and of `LATCH`, field by field -/

theorem count_wrap (h : s.cnt = s.period - 1#16) :
    count s = { s with cnt := 0#16, act := s.ccr }.raisePbf := by simp [count, h]

theorem count_up (h : s.cnt ≠ s.period - 1#16) : count s = { s with cnt := s.cnt + 1#16 } := by
  simp [count, h]

/-- `TICK` writes `CNT`, `ACT` and `STATUS` only. -/
theorem tick_frame (s : State) : (compareMatch (count s)).period = s.period ∧
    (compareMatch (count s)).ctrl = s.ctrl ∧ (compareMatch (count s)).ccr = s.ccr ∧
    (compareMatch (count s)).estate = s.estate ∧
    (compareMatch (count s)).configured = s.configured ∧
    (compareMatch (count s)).fault = s.fault ∧ (compareMatch (count s)).refused = s.refused ∧
    (compareMatch (count s)).pc = s.pc ∧ (compareMatch (count s)).rd = s.rd ∧
    (compareMatch (count s)).schedule = s.schedule ∧ (compareMatch (count s)).turns = s.turns ∧
    (compareMatch (count s)).draws = s.draws := by
  unfold compareMatch count
  split <;> split <;> simp

/-- The counter after a `TICK` (spec R126). -/
theorem tick_cnt (s : State) : (compareMatch (count s)).cnt =
    if s.cnt = s.period - 1#16 then 0#16 else s.cnt + 1#16 := by
  unfold compareMatch count
  split <;> split <;> simp_all

/-- The active values after a `TICK` (spec R126). -/
theorem tick_act (s : State) : (compareMatch (count s)).act =
    if s.cnt = s.period - 1#16 then s.ccr else s.act := by
  unfold compareMatch count
  split <;> split <;> simp_all

/-- A `TICK` sets `PBF` on a wrap and never clears it (spec R126). -/
theorem tick_pbf (s : State) : (compareMatch (count s)).pbf =
    (s.pbf || decide (s.cnt = s.period - 1#16)) := by
  have h : (compareMatch (count s)).pbf = (count s).pbf := by
    unfold compareMatch; split <;> simp
  rw [h]
  by_cases hw : s.cnt = s.period - 1#16
  · rw [count_wrap hw, pbf_raisePbf]; simp [hw]
  · rw [count_up hw]; simp [hw, State.pbf]

/-- A `TICK` sets `CMF` when the new counter equals unit 2's new active value (spec R126). -/
theorem tick_cmf (s : State) : (compareMatch (count s)).cmf =
    (s.cmf || decide ((compareMatch (count s)).cnt = (compareMatch (count s)).act.u2)) := by
  have hc : (compareMatch (count s)).cnt = (count s).cnt := by
    unfold compareMatch; split <;> simp
  have ha : (compareMatch (count s)).act = (count s).act := by
    unfold compareMatch; split <;> simp
  have hf : (count s).cmf = s.cmf := by
    unfold count; split <;> simp [State.cmf]
  rw [hc, ha, ← hf]
  unfold compareMatch
  split
  · rename_i h; simp [h]
  · rename_i h; simp [h]

/-- What the draw of a `LATCH` can do: nothing, or count a draw and perhaps set `CMF` (spec R151). -/
theorem freshMatch_cases (b : Bool) (i : Chan) (s : State) : freshMatch b i s = s ∨
    (i = .sw ∧ s.configured = true ∧ s.act.u2 = s.cnt ∧
      freshMatch b i s = afterDraw (if b then s.raiseCmf else s)) := by
  unfold freshMatch
  split
  · rename_i h; exact .inr ⟨h.1, h.2.1, h.2.2, rfl⟩
  · exact .inl rfl

/-- `LATCH i` writes `ACT[i]`, and for unit 2 perhaps `CMF`. -/
theorem latch_frame (b : Bool) (i : Chan) (s : State) :
    (latchUnit b i s).act = s.act.set i (s.ccr.get i) ∧
    (latchUnit b i s).period = s.period ∧ (latchUnit b i s).cnt = s.cnt ∧
    (latchUnit b i s).ctrl = s.ctrl ∧ (latchUnit b i s).ccr = s.ccr ∧
    (latchUnit b i s).estate = s.estate ∧ (latchUnit b i s).configured = s.configured ∧
    (latchUnit b i s).fault = s.fault ∧ (latchUnit b i s).refused = s.refused ∧
    (latchUnit b i s).pc = s.pc ∧ (latchUnit b i s).rd = s.rd ∧
    (latchUnit b i s).schedule = s.schedule ∧ (latchUnit b i s).turns = s.turns := by
  unfold latchUnit freshMatch
  split
  · cases b <;> simp
  · simp

theorem latch_pbf (b : Bool) (i : Chan) (s : State) : (latchUnit b i s).pbf = s.pbf := by
  unfold latchUnit freshMatch
  split
  · cases b <;> simp [State.pbf]
  · simp [State.pbf]

theorem latch_cmf (b : Bool) (i : Chan) (s : State) : (latchUnit b i s).cmf =
    (s.cmf || (b && decide (i = .sw ∧ s.configured = true ∧ s.ccr.u2 = s.cnt))) := by
  unfold latchUnit freshMatch
  by_cases h : i = .sw
  · subst h
    by_cases h2 : s.configured = true ∧ s.ccr.u2 = s.cnt
    · cases b <;> simp [h2, Bank.set, Bank.get, State.cmf]
    · simp [h2, Bank.set, Bank.get, State.cmf]
  · simp [h, State.cmf]

/-- The two edges write `ESTATE` only. -/
theorem assertEdge_eq (d : Val) (s : State) : assertEdge d s =
    { s with estate := if s.cnt < d then .asserted else s.estate } := by
  unfold assertEdge
  cases h : s.estate <;> by_cases hc : s.cnt < d <;> simp [hc] <;> cases s <;> simp_all

theorem deassertEdge_eq (d : Val) (s : State) : deassertEdge d s =
    { s with estate := if d ≤ s.cnt then .deasserted else s.estate } := by
  unfold deassertEdge
  cases h : s.estate <;> by_cases hc : d ≤ s.cnt <;> simp [hc] <;> cases s <;> simp_all

@[simp] theorem pbf_assertEdge {d : Val} : (assertEdge d s).pbf = s.pbf := by
  rw [assertEdge_eq]; rfl
@[simp] theorem cmf_assertEdge {d : Val} : (assertEdge d s).cmf = s.cmf := by
  rw [assertEdge_eq]; rfl
@[simp] theorem pbf_deassertEdge {d : Val} : (deassertEdge d s).pbf = s.pbf := by
  rw [deassertEdge_eq]; rfl
@[simp] theorem cmf_deassertEdge {d : Val} : (deassertEdge d s).cmf = s.cmf := by
  rw [deassertEdge_eq]; rfl
@[simp] theorem pbf_afterDraw : (afterDraw s).pbf = s.pbf := rfl
@[simp] theorem cmf_afterDraw : (afterDraw s).cmf = s.cmf := rfl

end Sys2Proof.Laws
end

