-- ==== Sys2Proof/Laws/Moves.lean ====
section
/-! SUPPORT. Once and for all, everything a move of an agent can do (`Effect`), and everything a step
of the machine can do (`step_next`). -/

namespace Sys2Proof.Laws

open Sys2Proof.Machine Sys2Proof.Safety

/-- The moves that can be taken in a live state `s`, each with what it leads to. -/
inductive Effect (s : State) : Move → State → Prop
  | illegal (w : Word) : Effect s (.illegal w) (raiseFault .illegalOp w s)
  | badPeriod : Effect s (.instr (.configure 0#16))
      (raiseFault .badPeriod (encode (.configure 0#16)) s)
  | reconfigure (p : Val) (hp : p ≠ 0#16) (hc : s.configured = true) :
      Effect s (.instr (.configure p)) (refuse .reconfigure (encode (.configure p)) s)
  | configure (p : Val) (hp : p ≠ 0#16) (hc : s.configured = false) :
      Effect s (.instr (.configure p)) (hostDone (startCounter p s))
  | setDuty (i : Chan) (v : Val) :
      Effect s (.instr (.setDuty (chOf i) v)) (hostDone { s with ccr := s.ccr.set i v })
  | badChannel (v : Val) : Effect s (.instr (.setDuty 3#2 v))
      (raiseFault .badChannel (encode (.setDuty 3#2 v)) s)
  | notConfigured (m : BitVec 4) (hm : m.getLsbD 0 = true) (hc : s.configured = false) :
      Effect s (.instr (.writeCtrl m)) (raiseFault .notConfigured (encode (.writeCtrl m)) s)
  | writeCtrl (m : BitVec 4) (hm : m.getLsbD 0 = true → s.configured = true) :
      Effect s (.instr (.writeCtrl m)) (hostDone { s with ctrl := m })
  | readCnt : Effect s (.instr .readCnt) (hostDone (returnData (zext32 s.cnt) s))
  | delay (n : Val) : Effect s (.instr (.delay n)) (hostDone s)
  | tick (he : tickEnabled s = true) : Effect s (.instr .tick) (compareMatch (count s))
  | servicePb (b : Bool) (he : pbEnabled s = true) :
      Effect s (.instr .servicePb) (assertEdge (drawnDuty b s) (afterDraw s.clearPbf))
  | serviceCm (b : Bool) (he : cmEnabled s = true) :
      Effect s (.instr .serviceCm) (deassertEdge (drawnDuty b s) (afterDraw s.clearCmf))
  | latch (b : Bool) (i : Chan) (he : latchEnabled i s = true) :
      Effect s (.instr (.latch (chOf i))) (latchUnit b i s)

/-- What a meaning that answers a next state has done. -/
theorem effect_of_execWith {s t : State} {b : Bool} {i : Instr} (h : execWith b i s = .next t) :
    s.live = true ∧ Effect s (.instr i) t := by
  cases i with
  | configure p =>
    obtain ⟨hl, ⟨rfl, rfl⟩ | ⟨hp, hc, rfl⟩ | ⟨hp, hc, rfl⟩⟩ := execConfigure_next.1 h
    · exact ⟨hl, .badPeriod⟩
    · exact ⟨hl, .reconfigure p hp hc⟩
    · exact ⟨hl, .configure p hp hc⟩
  | setDuty ch v =>
    obtain ⟨hl, ⟨i, rfl, rfl⟩ | ⟨rfl, rfl⟩⟩ := execSetDuty_next.1 h
    · exact ⟨hl, .setDuty i v⟩
    · exact ⟨hl, .badChannel v⟩
  | writeCtrl m =>
    obtain ⟨hl, ⟨hm, hc, rfl⟩ | ⟨hm, rfl⟩⟩ := execWriteCtrl_next.1 h
    · exact ⟨hl, .notConfigured m hm hc⟩
    · exact ⟨hl, .writeCtrl m hm⟩
  | readCnt => obtain ⟨hl, rfl⟩ := execReadCnt_next.1 h; exact ⟨hl, .readCnt⟩
  | delay n => obtain ⟨hl, rfl⟩ := (execDelay_next (n := n)).1 h; exact ⟨hl, .delay n⟩
  | tick => obtain ⟨hl, he, rfl⟩ := execTick_next.1 h; exact ⟨hl, .tick he⟩
  | servicePb => obtain ⟨hl, he, rfl⟩ := servicePbWith_next.1 h; exact ⟨hl, .servicePb b he⟩
  | serviceCm => obtain ⟨hl, he, rfl⟩ := serviceCmWith_next.1 h; exact ⟨hl, .serviceCm b he⟩
  | latch ch => obtain ⟨hl, i, rfl, he, rfl⟩ := latchWith_next.1 h; exact ⟨hl, .latch b i he⟩

theorem effect_of_exec {s t : State} {i : Instr} (h : exec i s = .next t) :
    s.live = true ∧ Effect s (.instr i) t :=
  effect_of_execWith (exec_eq_execWith i s ▸ h)

/-- No move writes the model's own schedule. -/
theorem effect_schedule {s t : State} {m : Move} (h : Effect s m t) :
    t.schedule = s.schedule ∧ t.turns = s.turns := by
  cases h
  case tick => exact ⟨(tick_frame s).2.2.2.2.2.2.2.2.2.1, (tick_frame s).2.2.2.2.2.2.2.2.2.2.1⟩
  case latch b i _ =>
    exact ⟨(latch_frame b i s).2.2.2.2.2.2.2.2.2.2.2.1, (latch_frame b i s).2.2.2.2.2.2.2.2.2.2.2.2⟩
  all_goals first | exact ⟨rfl, rfl⟩ | simp [assertEdge_eq, deassertEdge_eq]

/-- What a move has done. -/
theorem effect_of_moves {s t : State} {m : Move} (h : Moves s m t) : s.live = true ∧ Effect s m t := by
  cases m with
  | instr i => obtain ⟨_, b, h⟩ := h; exact effect_of_execWith h
  | illegal w => obtain ⟨hl, _, rfl⟩ := h; exact ⟨hl, .illegal w⟩

/-! ### Each register under a move -/

/-- `PBF` under a move (spec R39). -/
theorem effect_pbf {s t : State} {m : Move} (h : Effect s m t) :
    (m = .instr .tick ∧ t.pbf = (s.pbf || decide (s.cnt = s.period - 1#16))) ∨
      (m = .instr .servicePb ∧ t.pbf = false) ∨
      (m ≠ .instr .tick ∧ m ≠ .instr .servicePb ∧ t.pbf = s.pbf) := by
  cases h
  case tick => exact .inl ⟨rfl, tick_pbf s⟩
  case servicePb => exact .inr (.inl ⟨rfl, by simp⟩)
  case latch => exact .inr (.inr ⟨by simp, by simp, latch_pbf _ _ _⟩)
  all_goals exact .inr (.inr ⟨by simp, by simp, by first | rfl | simp⟩)

/-- `CMF` under a move (spec R40). -/
theorem effect_cmf {s t : State} {m : Move} (h : Effect s m t) :
    (m = .instr .tick ∧ t.cmf = (s.cmf || decide (t.cnt = t.act.u2))) ∨
      (m = .instr .serviceCm ∧ t.cmf = false) ∨
      (m = .instr (.latch (chOf .sw)) ∧ (t.cmf = s.cmf ∨
        (t.cmf = true ∧ s.configured = true ∧ s.ccr.u2 = s.cnt))) ∨
      (m ≠ .instr .tick ∧ m ≠ .instr .serviceCm ∧ t.cmf = s.cmf) := by
  cases h
  case tick => exact .inl ⟨rfl, tick_cmf s⟩
  case serviceCm => exact .inr (.inl ⟨rfl, by simp⟩)
  case latch b i he =>
    rw [latch_cmf]
    by_cases hi : i = .sw
    · subst hi
      refine .inr (.inr (.inl ⟨rfl, ?_⟩))
      cases b <;> by_cases hc : s.configured = true ∧ s.ccr.u2 = s.cnt <;> simp [hc]
    · exact .inr (.inr (.inr ⟨by simp, by simp, by simp [hi]⟩))
  all_goals exact .inr (.inr (.inr ⟨by simp, by simp, by first | rfl | simp⟩))

/-- `CNT` under a move (spec R35). -/
theorem effect_cnt {s t : State} {m : Move} (h : Effect s m t) :
    (m = .instr .tick ∧ t.cnt = if s.cnt = s.period - 1#16 then 0#16 else s.cnt + 1#16) ∨
      (s.configured = false ∧ (∃ p, m = .instr (.configure p)) ∧ t.cnt = 0#16) ∨
      (m ≠ .instr .tick ∧ t.cnt = s.cnt) := by
  cases h
  case tick => exact .inl ⟨rfl, tick_cnt s⟩
  case configure p hp hc => exact .inr (.inl ⟨hc, ⟨p, rfl⟩, rfl⟩)
  case latch => exact .inr (.inr ⟨by simp, by simp [latch_frame]⟩)
  all_goals exact .inr (.inr ⟨by simp, by first | rfl | simp [assertEdge_eq, deassertEdge_eq]⟩)

/-- The active values under a move (spec R44). -/
theorem effect_act {s t : State} {m : Move} (h : Effect s m t) :
    (m = .instr .tick ∧ t.act = if s.cnt = s.period - 1#16 then s.ccr else s.act) ∨
      (∃ i, m = .instr (.latch (chOf i)) ∧ t.act = s.act.set i (s.ccr.get i)) ∨
      (m ≠ .instr .tick ∧ t.act = s.act) := by
  cases h
  case tick => exact .inl ⟨rfl, tick_act s⟩
  case latch b i he => exact .inr (.inl ⟨i, rfl, (latch_frame b i s).1⟩)
  all_goals exact .inr (.inr ⟨by simp, by first | rfl | simp [assertEdge_eq, deassertEdge_eq]⟩)

/-- `ESTATE` under a move (spec R41). -/
theorem effect_estate {s t : State} {m : Move} (h : Effect s m t) :
    (m = .instr .servicePb ∧ ∃ b, t.estate = if s.cnt < drawnDuty b s then .asserted else s.estate) ∨
      (m = .instr .serviceCm ∧ ∃ b,
        t.estate = if drawnDuty b s ≤ s.cnt then .deasserted else s.estate) ∨
      (m ≠ .instr .servicePb ∧ m ≠ .instr .serviceCm ∧ t.estate = s.estate) := by
  cases h
  case servicePb b he => exact .inl ⟨rfl, b, by rw [assertEdge_eq]; rfl⟩
  case serviceCm b he => exact .inr (.inl ⟨rfl, b, by rw [deassertEdge_eq]; rfl⟩)
  case tick => exact .inr (.inr ⟨by simp, by simp, by simp [tick_frame]⟩)
  case latch => exact .inr (.inr ⟨by simp, by simp, by simp [latch_frame]⟩)
  all_goals exact .inr (.inr ⟨by simp, by simp, by rfl⟩)

/-- A configured block keeps its period (spec R33, R34). -/
theorem effect_configured {s t : State} {m : Move} (h : Effect s m t) (hc : s.configured = true) :
    t.configured = true ∧ t.period = s.period := by
  cases h
  case configure p hp hc' => rw [hc] at hc'; cases hc'
  case tick => exact ⟨by simp [tick_frame, hc], by simp [tick_frame]⟩
  case latch => exact ⟨by simp [latch_frame, hc], by simp [latch_frame]⟩
  all_goals exact ⟨by first | exact hc | simp [assertEdge_eq, deassertEdge_eq, hc],
    by first | rfl | simp [assertEdge_eq, deassertEdge_eq]⟩

/-- A move of the timer or of the interrupt context was enabled (spec R103). -/
theorem effect_enabled {s t : State} {m : Move} (h : Effect s m t) :
    (m = .instr .tick → tickEnabled s = true) ∧ (m = .instr .servicePb → pbEnabled s = true) ∧
      (m = .instr .serviceCm → cmEnabled s = true) ∧
      ∀ i, m = .instr (.latch (chOf i)) → latchEnabled i s = true := by
  cases h
  case tick he => exact ⟨fun _ => he, by simp, by simp, by simp⟩
  case servicePb b he => exact ⟨by simp, fun _ => he, by simp, by simp⟩
  case serviceCm b he => exact ⟨by simp, by simp, fun _ => he, by simp⟩
  case latch b i he =>
    refine ⟨by simp, by simp, by simp, fun j hj => ?_⟩
    obtain rfl : i = j := by cases i <;> cases j <;> first | rfl | simp [chOf] at hj
    exact he
  all_goals exact ⟨by simp, by simp, by simp, by simp⟩

/-! ### The fetch and the step -/

theorem fetchTurn_label_ok {w : Word} {i : Instr} (s : State) (h : decodeLabel w = .ok i) :
    fetchTurn (.label w) s = .instr i s := by simp [fetchTurn, h]

/-- A turn that becomes an instruction or an illegal word leaves the state as it is. -/
theorem fetchTurn_state {tn : Turn} {s s' : State} :
    (∀ i, fetchTurn tn s = .instr i s' → s' = s) ∧ (∀ w, fetchTurn tn s = .illegal w s' → s' = s) := by
  constructor
  · intro i h
    unfold fetchTurn at h
    repeat' split at h
    all_goals first | (cases h; rfl) | cases h
  · intro w h
    unfold fetchTurn at h
    repeat' split at h
    all_goals first | (cases h; rfl) | cases h

/-- Only the host presents illegal words. -/
theorem fetchTurn_illegal {tn : Turn} {s s' : State} {w : Word} (h : fetchTurn tn s = .illegal w s') :
    tn = .host := by
  cases tn with
  | host => rfl
  | label v =>
    unfold fetchTurn at h
    simp only at h
    split at h <;> cases h

/-- A host instruction is fetched only from the host's turn. -/
theorem fetchTurn_byHost {tn : Turn} {s s' : State} {i : Instr} (h : fetchTurn tn s = .instr i s')
    (hi : byHost i = true) : tn = .host := by
  cases tn with
  | host => rfl
  | label v =>
    unfold fetchTurn at h
    simp only at h
    split at h
    · rename_i j hj
      cases h
      obtain ⟨_, ⟨_, _, _, rfl⟩ | ⟨_, _, _, rfl⟩ | ⟨_, _, _, rfl⟩ | ⟨_, _, _, rfl⟩⟩ := decodeLabel_ok hj <;>
        cases hi
    · cases h

/-- The next turn leaves every field but the schedule and the count of choices. -/
theorem nextTurn_state {s s' : State} {tn : Turn} (h : nextTurn s = some (tn, s')) :
    s' = { s with schedule := s'.schedule, turns := s'.turns } := by
  unfold nextTurn at h
  repeat' split at h
  all_goals first | (cases h; rfl) | cases h

theorem fetch_of_live {s : State} (h : s.live = true) : fetch s =
    match nextTurn s with
    | none => .stop .runEnded
    | some (tn, s') => fetchTurn tn s' := by
  obtain ⟨h1, h2⟩ := live_iff.1 h
  unfold fetch
  cases hn : nextTurn s <;> simp only [h1, h2]

/-- A fetch that does not stop comes from a live state and the next turn. -/
theorem fetch_live {s s' : State} : (∀ i, fetch s = .instr i s' → s.live = true) ∧
    (∀ w, fetch s = .illegal w s' → s.live = true) := by
  unfold fetch State.live
  cases s.fault <;> cases s.refused <;> simp

/-- A step that answers a next state takes the next turn of a live state: it executes an instruction
or raises the fault of an illegal host word. -/
theorem step_next {s t : State} (h : step s = .next t) : s.live = true ∧
    ∃ tn s', nextTurn s = some (tn, s') ∧
      ((∃ i, fetchTurn tn s' = .instr i s' ∧ exec i s' = .next t) ∨
        ∃ w, tn = .host ∧ fetchTurn tn s' = .illegal w s' ∧ t = raiseFault .illegalOp w s') := by
  have hl : s.live = true := by
    unfold step at h
    split at h
    · exact fetch_live.1 _ ‹_›
    · exact fetch_live.2 _ ‹_›
    · cases h
    · cases h
  refine ⟨hl, ?_⟩
  unfold step at h
  rw [fetch_of_live hl] at h
  cases hn : nextTurn s with
  | none => simp [hn] at h
  | some p =>
    obtain ⟨tn, s'⟩ := p
    simp only [hn] at h
    refine ⟨tn, s', rfl, ?_⟩
    split at h
    · rename_i i s'' hf
      have := fetchTurn_state.1 i hf
      subst this
      exact .inl ⟨i, hf, h⟩
    · rename_i w s'' hf
      have := fetchTurn_state.2 w hf
      subst this
      exact .inr ⟨w, fetchTurn_illegal hf, hf, next_eq.1 h⟩
    · cases h
    · cases h

/-- A step of a live state whose next turn is an instruction executes it. -/
theorem step_instr {s s' : State} {tn : Turn} {i : Instr} (hl : s.live = true)
    (hn : nextTurn s = some (tn, s')) (hf : fetchTurn tn s' = .instr i s') : step s = exec i s' := by
  simp [step, fetch_of_live hl, hn, hf]

/-- A step of a live state whose next turn is an illegal host word raises its fault. -/
theorem step_illegal {s s' : State} {tn : Turn} {w : Word} (hl : s.live = true)
    (hn : nextTurn s = some (tn, s')) (hf : fetchTurn tn s' = .illegal w s') :
    step s = .next (raiseFault .illegalOp w s') := by
  simp [step, fetch_of_live hl, hn, hf]

/-- A step of a live state with no turn left stops. -/
theorem step_ended {s : State} (hl : s.live = true) (hn : nextTurn s = none) :
    step s = .fault .runEnded := by
  simp [step, fetch_of_live hl, hn]

/-- Placing a word records nothing. -/
theorem placeWord_live (w : Word) (s : State) : (placeWord w s).live = s.live := by
  unfold placeWord; split <;> rfl

/-- The turns that are enabled, one line per row of spec R103. -/
theorem mem_enabledTurns (s : State) (tn : Turn) : tn ∈ enabledTurns s ↔
    (tn = .host ∧ hostEnabled s = true) ∨ (tn = labelTurn .tick ∧ tickEnabled s = true) ∨
      (tn = labelTurn .servicePb ∧ pbEnabled s = true) ∨
      (tn = labelTurn .serviceCm ∧ cmEnabled s = true) ∨
      ∃ i, tn = labelTurn (.latch (chOf i)) ∧ latchEnabled i s = true := by
  have h : (∃ i, tn = labelTurn (.latch (chOf i)) ∧ latchEnabled i s = true) ↔
      (tn = labelTurn (.latch (chOf .hw0)) ∧ latchEnabled .hw0 s = true) ∨
      (tn = labelTurn (.latch (chOf .hw1)) ∧ latchEnabled .hw1 s = true) ∨
      (tn = labelTurn (.latch (chOf .sw)) ∧ latchEnabled .sw s = true) := by
    constructor
    · rintro ⟨i, h⟩; cases i <;> simp [h]
    · rintro (h | h | h) <;> exact ⟨_, h⟩
  rw [h]
  unfold enabledTurns
  cases hostEnabled s <;> cases tickEnabled s <;> cases pbEnabled s <;> cases cmEnabled s <;>
    cases latchEnabled .hw0 s <;> cases latchEnabled .hw1 s <;> cases latchEnabled .sw s <;> simp

/-- The free choice is one of the turns it chooses among. -/
theorem pick_mem (n : Nat) (t : Turn) (ts : List Turn) : pick n t ts ∈ t :: ts := by
  unfold pick
  have h : Config.freeTurn n % (ts.length + 1) < (t :: ts).length := by
    simpa using Nat.mod_lt _ (Nat.succ_pos _)
  rw [List.getD_eq_getElem _ _ h]
  exact List.getElem_mem h

/-- With nothing scheduled the next turn is an enabled one, and there is none only if none is. -/
theorem nextTurn_free {s : State} (hs : s.schedule = []) :
    (enabledTurns s = [] ∧ nextTurn s = none) ∨
      ∃ tn s', tn ∈ enabledTurns s ∧ nextTurn s = some (tn, s') ∧ s'.schedule = [] := by
  unfold nextTurn
  rw [hs]
  simp only
  cases h : enabledTurns s with
  | nil => simp
  | cons t l =>
    right
    cases l with
    | nil => exact ⟨t, s, by simp, rfl, hs⟩
    | cons t' ts => exact ⟨_, _, pick_mem _ _ _, rfl, rfl⟩

/-! ### The host's program -/

/-- A program has no next statement exactly when it has ended (spec R103). -/
theorem stmt_eq_none {pc : HostPc} : pc.stmt? = none ↔ pc = .other [] .ends := by
  rcases pc with p | ⟨_ | _, _ | _ | _⟩ <;> simp [HostPc.stmt?]

/-- A statement put before a program is issued next. -/
@[simp] theorem stmt_push (st : HostStmt) (pc : HostPc) : (pc.push st).stmt? = some st := by
  cases pc <;> rfl

/-- After a statement put before a program other than the Fade Sequencer, that program goes on. -/
@[simp] theorem next_push (st : HostStmt) (rest : List HostStmt) (tl : HostTail) :
    ((HostPc.other rest tl).push st).next = .other rest tl := rfl

/-- An endless program never ends (spec R253). -/
theorem stmt_free (rest : List HostStmt) (k n : Nat) :
    ((HostPc.other rest (.free k n)).stmt?).isSome = true := by
  cases rest <;> rfl

/-- An endless program's statement is a word for the block or a `DELAY`. -/
theorem freeStmt_cases (k n : Nat) :
    (∃ w, freeStmt k n = .toBlock w) ∨ ∃ d, freeStmt k n = .own (encode (.delay d)) := by
  unfold freeStmt
  cases Config.freeHostStmt k n with
  | inl w => exact .inl ⟨w, rfl⟩
  | inr d => exact .inr ⟨d, rfl⟩

/-- The host at a position of the Fade Sequencer executes that position's statement (spec R210). -/
theorem fetchTurn_fade {s : State} {p : FadePc} (h : s.pc = .fade p) :
    fetchTurn .host s = .instr (p.instr Config.fade) s := by
  unfold fetchTurn
  rw [h]
  cases p with
  | init0 =>
    simp [HostPc.stmt?, FadePc.stmt, FadePc.instr, decodeHost, opcode, chOperand, immOperand, fixedZero]
  | init1 =>
    simp [HostPc.stmt?, FadePc.stmt, FadePc.instr, irqOn, decodeHost, opcode, chOperand, immOperand,
      immHigh_eq, immCtrl_eq, fixedZero]
  | run k i sub =>
    cases sub <;> simp [HostPc.stmt?, FadePc.stmt, FadePc.instr, setColour, decodeHost, decodeHostOwn, decodeOwn,
      opcode, chOperand, immOperand, fixedZero]

/-! ### Registers -/

/-- A bank is its three registers. -/
theorem bank_ext {a b : Bank} (h : ∀ i, a.get i = b.get i) : a = b := by
  have h0 := h .hw0; have h1 := h .hw1; have h2 := h .sw
  cases a; cases b
  simp_all [Bank.get]

end Sys2Proof.Laws
end

