-- ==== Sys2Proof/Laws/PerInstr.lean ====
section
/-! SUPPORT. A fact about every instruction as syntax: its word's fields are those of the one format of
spec R90, `RSV` 0 and `OP` the code of spec R91, and a field the instruction does not use is 0. -/

namespace Sys2Proof.Laws.WordFormat

/-- The codes of spec R91. -/
def codes : List (BitVec 4) := [0x1#4, 0x2#4, 0x3#4, 0x4#4, 0x5#4, 0x8#4, 0x9#4, 0xA#4, 0xB#4]

/-- The word of `i` has a code of the table, `RSV = 0`, and its operands in their fields (spec R90,
R91); only `SET_DUTY` and `LATCH` use `CH`. -/
def Statement (i : Instr) : Prop :=
  opField (encode i) ∈ codes ∧ rsvField (encode i) = 0#10 ∧ immField (encode i) = immOperand i ∧
    chField (encode i) = chOperand i ∧
    (opField (encode i) ≠ 0x2#4 → opField (encode i) ≠ 0xB#4 → chField (encode i) = 0#2)

theorem configure (p : Val) : Statement (.configure p) := by
  simp [Statement, codes, opcode, chOperand]
theorem setDuty (ch : BitVec 2) (v : Val) : Statement (.setDuty ch v) := by
  simp [Statement, codes, opcode]
theorem writeCtrl (m : BitVec 4) : Statement (.writeCtrl m) := by
  simp [Statement, codes, opcode, chOperand]
theorem readCnt : Statement .readCnt := by simp [Statement, codes, opcode, chOperand]
theorem delay (n : Val) : Statement (.delay n) := by simp [Statement, codes, opcode, chOperand]
theorem tick : Statement .tick := by simp [Statement, codes, opcode, chOperand]
theorem servicePb : Statement .servicePb := by simp [Statement, codes, opcode, chOperand]
theorem serviceCm : Statement .serviceCm := by simp [Statement, codes, opcode, chOperand]
theorem latch (ch : BitVec 2) : Statement (.latch ch) := by
  simp [Statement, codes, opcode]

end Sys2Proof.Laws.WordFormat
end

