-- ==== Sys2Proof/Tests/Slice0.lean ====
section
/-! SUPPORT. The model's own tests: the well-formedness smoke test, the words of spec R105 and of the
vectors V-DEC, one step of each instruction with results taken from file 95, and for every statement
with hypotheses a concrete state that meets them. -/

namespace Sys2Proof.Tests

open Sys2Proof.Machine Sys2Proof.Safety Sys2Proof.Laws

/-- What `f` reads in the next state, if there is one. -/
def peek {α : Type} (f : State → α) (r : Result) : Option α :=
  match r with
  | .next t => some (f t)
  | .fault _ | .refused _ => none

/-- Three registers of one kind. -/
def bank (a b c : Val) : Bank := { u0 := a, u1 := b, u2 := c }

/-- A configured block with `PERIOD = p`, `CNT = c`, every enable set, no flag pending, `CCR` and
`ACT` as given and a host that issues nothing more. -/
def dev (p c : Val) (ccr act : Bank) : State :=
  { State.reset with
    period := p, cnt := c, ctrl := 0xF#4, configured := true, ccr := ccr, act := act, pc := .other [] .ends }

/-- The same with flags pending and an edge state. -/
def pending (st : BitVec 2) (e : EState) (s : State) : State := { s with status := st, estate := e }

/-- The same with a host program. -/
def issuing (l : List HostStmt) (s : State) : State := { s with pc := .other l .ends }

/-! ### Well-formedness and decoding -/

theorem test_wellFormed_refuses_latch_of_no_unit : (Instr.latch 3#2).wellFormed = false := by decide
theorem test_wellFormed_accepts : (Instr.latch 2#2).wellFormed = true ∧
    (Instr.setDuty 3#2 1#16).wellFormed = true := by decide

/-- R92's patterns, written out bit by bit, one per instruction. -/
theorem test_decode_configure :
    decodeTableWord 32 0b00010000000000000000001111101000 = some (.configure 1000#16) := by decide
theorem test_decode_setDuty :
    decodeTableWord 32 0b00100100000000000000001111101000 = some (.setDuty 1#2 1000#16) := by decide
theorem test_decode_writeCtrl :
    decodeTableWord 32 0b00110000000000000000000000001011 = some (.writeCtrl 0b1011#4) := by decide
theorem test_decode_readCnt :
    decodeTableWord 32 0b01000000000000000000000000000000 = some .readCnt := by decide
theorem test_decode_delay :
    decodeTableWord 32 0b01010000000000000000000000000101 = some (.delay 5#16) := by decide
theorem test_decode_tick :
    decodeTableWord 32 0b10000000000000000000000000000000 = some .tick := by decide
theorem test_decode_servicePb :
    decodeTableWord 32 0b10010000000000000000000000000000 = some .servicePb := by decide
theorem test_decode_serviceCm :
    decodeTableWord 32 0b10100000000000000000000000000000 = some .serviceCm := by decide
theorem test_decode_latch :
    decodeTableWord 32 0b10111000000000000000000000000000 = some (.latch 2#2) := by decide

/-- V-DEC: the illegal host words. -/
theorem test_decode_illegal : ([0x00000000#32, 0x14000004#32, 0x10010004#32, 0x30000010#32,
    0x40000001#32, 0x50000005#32, 0x80000000#32].all fun w =>
      (decodeHost w).toOption.isNone) = true := by decide
theorem test_decode_reserved : ([0x60000000#32, 0x70000000#32, 0xC0000000#32, 0xD0000000#32,
    0xE0000000#32, 0xF0000000#32].all fun w => (decodeHost w).toOption.isNone) = true := by decide

/-- R97, I18: `DELAY` with a nonzero reserved bit or `CH` is an illegal host word, also where the host
issues it as its own statement. -/
theorem test_malformed_delay_faults :
    peek State.fault (step (issuing [.own 0x50010005#32] { State.reset with schedule := [.host] })) =
      some (some (.illegalOp, 0x50010005#32)) ∧
    peek State.fault (step (issuing [.own 0x54000005#32] { State.reset with schedule := [.host] })) =
      some (some (.illegalOp, 0x54000005#32)) := ⟨rfl, rfl⟩

/-- R94: the label word `LATCH` with `CH = 3`; a label with a nonzero reserved or fixed field. -/
theorem test_decode_noSuchStep : ∀ w ∈ [0xBC000000, 0x80010000, 0x84000000, 0x90000001, 0xB8000001],
    decodeTableWord 32 w = none := by decide

/-! ### One step of each instruction (file 95) -/

/-- R120's example. -/
theorem test_configure_from_reset : peek (fun t => (t.period, t.cnt, t.ctrl, t.configured))
    (exec (.configure 1000#16) State.reset) = some (1000#16, 0#16, 0b0001#4, true) := by decide
/-- V-CFG: the fault is checked before the refusal. -/
theorem test_configure_zero_faults_first : peek (fun t => (t.fault, t.refused))
    (exec (.configure 0#16) (dev 4 0 (bank 0 0 0) (bank 0 0 0))) =
      some (some (.badPeriod, 0x10000000#32), none) := by decide

/-- V-DUTY: from reset, `CCR[0] = 7` and `ACT[0] = 0`. -/
theorem test_setDuty_from_reset : peek (fun t => (t.ccr, t.act))
    (exec (.setDuty 0#2 7#16) State.reset) = some (bank 7 0 0, bank 0 0 0) := by decide
/-- V-DUTY: `CH = 3`. -/
theorem test_setDuty_bad_channel : peek (fun t => (t.fault, t.ccr))
    (exec (.setDuty 3#2 0#16) State.reset) =
      some (some (.badChannel, 0x2C000000#32), bank 0 0 0) := by decide

/-- V-DEC: from reset, `WRITE_CTRL 0xE` is legal. -/
theorem test_writeCtrl_before_configure : peek (fun t => (t.ctrl, t.fault))
    (exec (.writeCtrl 0xE#4) State.reset) = some (0xE#4, none) := by decide
/-- V-CTL: masking keeps the flag pending. -/
theorem test_writeCtrl_keeps_pending : peek (fun t => (t.ctrl, t.pbf, pbEnabled t))
    (exec (.writeCtrl 0x1#4) (pending 0b01#2 .deasserted (dev 4 0 (bank 0 0 0) (bank 0 0 0)))) =
      some (0x1#4, true, false) := by decide

/-- R124's example. -/
theorem test_readCnt : peek (fun t => (t.rd, t.cnt))
    (exec .readCnt (dev 4 3 (bank 0 0 0) (bank 0 0 0))) = some (3#32, 3#16) := by decide
/-- V-RD: 0 from reset. -/
theorem test_readCnt_at_reset : peek State.rd (exec .readCnt State.reset) = some 0#32 := by decide

/-- R214's example, as the statement of a host program: only the position moves. -/
theorem test_delay : peek id (step ((issuing [] (dev 4 1 (bank 1 2 3) (bank 1 2 3))).withFetchWord 32
    0x50000005)) = some (dev 4 1 (bank 1 2 3) (bank 1 2 3)) := by decide

/-- R126's example: a compare match on the value just loaded at the wrap. -/
theorem test_tick_wrap : peek (fun t => (t.cnt, t.act, t.pbf, t.cmf))
    (exec .tick (dev 4 3 (bank 1 2 0) (bank 1 2 3))) = some (0#16, bank 1 2 0, true, true) := by decide
/-- V-TICK: counting up to the active compare value. -/
theorem test_tick_compare : peek (fun t => (t.cnt, t.act, t.pbf, t.cmf))
    (exec .tick (dev 4 2 (bank 1 2 3) (bank 1 2 3))) = some (3#16, bank 1 2 3, false, true) := by decide

/-- V-SVC rows 1 and 2, `SERVICE_PB`: in time and late. -/
theorem test_servicePb : peek (fun t => (t.pbf, t.estate))
    (exec .servicePb (pending 0b01#2 .deasserted (dev 4 0 (bank 0 0 3) (bank 0 0 3)))) =
      some (false, .asserted) := by decide
theorem test_servicePb_late : peek (fun t => (t.pbf, t.estate))
    (exec .servicePb (pending 0b01#2 .deasserted (dev 4 3 (bank 0 0 3) (bank 0 0 3)))) =
      some (false, .deasserted) := by decide

/-- V-SVC row 4, `SERVICE_CM`. -/
theorem test_serviceCm : peek (fun t => (t.cmf, t.estate))
    (exec .serviceCm (pending 0b10#2 .asserted (dev 4 3 (bank 0 0 3) (bank 0 0 3)))) =
      some (false, .deasserted) := by decide
/-- V-SVC's draw vector: the new value 1 deasserts, the old value 3 does not. -/
theorem test_serviceCm_draw : [true, false].map (fun b => peek State.estate (serviceCmWith b
    (pending 0b10#2 .asserted (dev 4 2 (bank 0 0 1) (bank 0 0 3))))) =
      [some .deasserted, some .asserted] := by decide

/-- V-LATCH: `LATCH 0` raises its output. -/
theorem test_latch_output : out .hw0 (dev 4 2 (bank 3 0 0) (bank 1 0 0)) = false ∧
    peek (fun t => (t.act, out .hw0 t)) (exec (.latch 0#2) (dev 4 2 (bank 3 0 0) (bank 1 0 0))) =
      some (bank 3 0 0, true) := by decide
/-- V-LATCH: `LATCH 2` onto the counter's value, both draws. -/
theorem test_latch_draw : [true, false].map (fun b => peek (fun t => (t.act.u2, t.cmf))
    (latchWith b 2#2 (dev 4 2 (bank 0 0 2) (bank 0 0 0)))) =
      [some (2#16, true), some (2#16, false)] := by decide

/-! ### The host's program and the step -/

/-- P4: words of the Fade Sequencer with `P = 2`, `STEP_DELAY = 5` and the default `CHMAP`. -/
theorem test_fade_words : ([FadePc.init0, .init1, .run .p0 0 .s0, .run .p0 1 .s1, .run .p1 2 .s0,
    .run .p2 2 .s1, .run .p2 2 .s2].map fun p =>
      encode (p.instr { period := 2#16, delay := 5#16, chmap := Config.defaultChmap })) =
    [0x10000002#32, 0x3000000F#32, 0x28000002#32, 0x24000001#32, 0x24000000#32, 0x28000002#32,
      0x50000005#32] := by decide
/-- V-DELAY and R213: the positions after a delay. -/
theorem test_fade_positions : [FadePc.run .p0 0 .s2, .run .p0 2 .s2, .run .p2 2 .s2].map
    (FadePc.next 2) = [FadePc.run .p0 1 .s0, .run .p1 0 .s0, .run .p0 0 .s0] := by decide

/-- V-DEC: an illegal host word, from reset. -/
theorem test_step_illegal : peek (fun t => (t.fault, t.ccr))
    (step (State.reset.withFetchWord 32 0x10010004)) =
      some (some (.illegalOp, 0x10010004#32), bank 0 0 0) := by decide
/-- P5: after a fault no step is taken. -/
theorem test_step_after_fault : step (raiseFault .notConfigured 0x30000001#32 State.reset) =
    .fault (.halted .notConfigured 0x30000001#32) := rfl
/-- R103: `TICK` is not enabled at reset. -/
theorem test_tick_not_enabled_at_reset : step (State.reset.withFetchWord 32 0x80000000) =
    .fault (.notEnabled .tick) := rfl

/-! ### A run with prompt service, for the statements over runs

The host issues nothing; every pending event is serviced before the next `TICK`. -/

/-- What a run keeps for the next move to be enabled. -/
def Ready (s : State) : Prop :=
  s.fault = none ∧ s.refused = none ∧ s.configured = true ∧ s.ctrl = 0xF#4 ∧ s.pc = .other [] .ends ∧
    s.act = s.ccr

/-- The next move. -/
def promptInstr (s : State) : Instr :=
  if s.pbf then .servicePb else if s.cmf then .serviceCm else .tick

/-- The state it leads to. -/
def promptNext (s : State) : State :=
  if s.pbf then assertEdge (drawnDuty false s) (afterDraw s.clearPbf)
  else if s.cmf then deassertEdge (drawnDuty false s) (afterDraw s.clearCmf)
  else compareMatch (count s)

theorem promptNext_move (s : State) (h : Ready s) : Moves s (.instr (promptInstr s)) (promptNext s) := by
  obtain ⟨h1, h2, h3, h4, -, -⟩ := h
  have hl : s.live = true := live_iff.2 ⟨h1, h2⟩
  refine ⟨?_, false, ?_⟩
  · unfold promptInstr; split <;> [simp [byHost]; split <;> simp [byHost]]
  · unfold promptInstr promptNext
    split
    · exact servicePbWith_next.2 ⟨hl, by simp_all [pbEnabled, State.gie, State.pbie], rfl⟩
    · split
      · exact serviceCmWith_next.2 ⟨hl, by simp_all [cmEnabled, State.gie, State.cmie], rfl⟩
      · exact execTick_next.2 ⟨hl, by simp_all [tickEnabled, State.cen], rfl⟩

theorem promptNext_ready (s : State) (h : Ready s) :
    Ready (promptNext s) ∧ (promptNext s).ccr = s.ccr := by
  obtain ⟨h1, h2, h3, h4, h5, h6⟩ := h
  unfold promptNext Ready
  split
  · simp_all [assertEdge_eq]
  · split
    · simp_all [deassertEdge_eq]
    · simp_all [tick_frame, tick_act]

/-- The states of the run. -/
def promptState (s : State) : Nat → State
  | 0 => s
  | n + 1 => promptNext (promptState s n)

theorem promptState_ready (s : State) (h : Ready s) (n : Nat) :
    Ready (promptState s n) ∧ (promptState s n).ccr = s.ccr := by
  induction n with
  | zero => exact ⟨h, rfl⟩
  | succ n ih =>
    have := promptNext_ready _ ih.1
    exact ⟨this.1, this.2.trans ih.2⟩

/-- The run. -/
def promptRun (s : State) (h : Ready s) : Run where
  state := promptState s
  move n := .instr (promptInstr (promptState s n))
  moves n := promptNext_move _ (promptState_ready s h n).1

theorem promptRun_fair (s : State) (h : Ready s) : (promptRun s h).WeaklyFair where
  tick n _ := by
    have b : ∀ t : State, t.pbf = true → (promptNext t).pbf = false := by
      intro t ht; simp [promptNext, ht]
    have c : ∀ t : State, t.pbf = false → t.cmf = true →
        (promptNext t).pbf = false ∧ (promptNext t).cmf = false := by
      intro t ht hc; simp [promptNext, ht, hc]
    have key : ∀ m, (promptState s m).pbf = false → ∃ k, m ≤ k ∧
        (promptState s k).pbf = false ∧ (promptState s k).cmf = false := by
      intro m hm
      cases hc : (promptState s m).cmf
      · exact ⟨m, Nat.le_refl _, hm, hc⟩
      · exact ⟨m + 1, Nat.le_succ _, c _ hm hc⟩
    have : ∃ k, n ≤ k ∧ (promptState s k).pbf = false ∧ (promptState s k).cmf = false := by
      cases hp : (promptState s n).pbf
      · exact key n hp
      · obtain ⟨k, hk, hh⟩ := key (n + 1) (b _ hp)
        exact ⟨k, by omega, hh⟩
    obtain ⟨k, hk, h1, h2⟩ := this
    exact ⟨k, hk, by simp [promptRun, promptInstr, h1, h2]⟩
  servicePb n hn := by
    have := hn n (Nat.le_refl _)
    simp only [pbEnabled, promptRun, Bool.and_eq_true] at this
    exact ⟨n, Nat.le_refl _, by simp [promptRun, promptInstr, this.2]⟩
  serviceCm n hn := by
    have h0 := hn n (Nat.le_refl _)
    have h1 := hn (n + 1) (Nat.le_succ _)
    simp only [cmEnabled, promptRun, Bool.and_eq_true] at h0 h1
    cases hp : (promptState s n).pbf
    · exact ⟨n, Nat.le_refl _, by simp [promptRun, promptInstr, hp, h0.2]⟩
    · refine ⟨n + 1, Nat.le_succ _, ?_⟩
      have : (promptState s (n + 1)).pbf = false := by simp [promptState, promptNext, hp]
      simp [promptRun, promptInstr, this, h1.2]
  host n hn := by
    have := hn n (Nat.le_refl _)
    simp [hostEnabled, promptRun, (promptState_ready s h n).1.2.2.2.2.1, HostPc.stmt?] at this

theorem promptRun_latency (s : State) (h : Ready s) : (promptRun s h).Latency (some 0) := by
  have none_pending : ∀ n, (promptRun s h).move n = .instr .tick →
      (promptState s n).pbf = false ∧ (promptState s n).cmf = false := by
    intro n hn
    simp only [promptRun, promptInstr, Move.instr.injEq] at hn
    split at hn
    · cases hn
    · split at hn
      · cases hn
      · simp_all
  constructor <;> intro a k hk <;>
    (simp only [Run.ticks, Run.count, Nat.le_zero, List.countP_eq_zero, List.mem_range]
     intro j hj ht
     have := none_pending (a + j) (by simpa [Run.ticksAt] using ht)
     have := hk j (Nat.le_of_lt hj)
     simp_all [promptRun])

/-- `PERIOD = 2`, both hardware channels and the software channel at duty `d`. -/
def two (d : Val) : State := dev 2 0 (bank d d d) (bank d d d)

theorem two_ready (d : Val) : Ready (two d) := ⟨rfl, rfl, rfl, rfl, rfl, rfl⟩

/-- The run from `two d`. -/
def twoRun (d : Val) : Run := promptRun (two d) (two_ready d)

theorem twoRun_values (d : Val) (n : Nat) : ((twoRun d).state n).ccr = bank d d d ∧
    ((twoRun d).state n).act = bank d d d ∧ ((twoRun d).state n).ctrl = 0xF#4 ∧
    ((twoRun d).state n).configured = true := by
  have h := promptState_ready (two d) (two_ready d) n
  exact ⟨h.2, h.1.2.2.2.2.2.trans h.2, h.1.2.2.2.1, h.1.2.2.1⟩

/-- From reset, a host that issues `READ_CNT` for ever and never `CONFIGURE` (spec R253). -/
def reader : State := { State.reset with pc := .other [] (.again (.toBlock 0x40000000#32) []) }

/-- Its run, in which no other agent has a step. -/
def readRun : Run where
  state _ := reader
  move _ := .instr .readCnt
  moves _ := ⟨fun _ => rfl, false, rfl⟩

/-- The run from `PERIOD = 2`, duty 2 and a compare match left pending by an older duty value. -/
def lateRun : Run := promptRun (pending 0b10#2 .deasserted (two 2)) ⟨rfl, rfl, rfl, rfl, rfl, rfl⟩

theorem lateRun_values (n : Nat) : (lateRun.state n).ccr.u2 = 2#16 ∧ (lateRun.state n).act.u2 = 2#16 := by
  have h := promptState_ready (pending 0b10#2 .deasserted (two 2)) ⟨rfl, rfl, rfl, rfl, rfl, rfl⟩ n
  show (promptState _ n).ccr.u2 = _ ∧ (promptState _ n).act.u2 = _
  rw [h.1.2.2.2.2.2, h.2]; exact ⟨rfl, rfl⟩

/-- A repeated program starts again after its last statement; a placed word comes before it. -/
theorem test_host_again :
    (HostPc.other [] (.again (.toBlock 1#32) [.toBlock 2#32])).stmt? = some (.toBlock 1#32) ∧
    (HostPc.other [] (.again (.toBlock 1#32) [.toBlock 2#32])).next.stmt? = some (.toBlock 2#32) ∧
    (HostPc.other [] (.again (.toBlock 1#32) [.toBlock 2#32])).next.next =
      .other [] (.again (.toBlock 1#32) [.toBlock 2#32]) ∧
    peek State.pc (step (reader.withFetchWord 32 0x30000000)) = some reader.pc := by decide

/-- An endless program goes on to its next statement. -/
theorem test_host_free : (HostPc.other [] (.free 3 5)).stmt? = some (freeStmt 3 5) ∧
    (HostPc.other [] (.free 3 5)).next = .other [] (.free 3 6) := ⟨rfl, rfl⟩

/-! ### For every statement with hypotheses, a state that meets them

`witness_<Name>` is for `Obligations.<Name>`. -/

theorem host_move {s t : State} {i : Instr} (h : fetchTurn .host s = .instr i s)
    (e : exec i s = .next t) : Moves s (.instr i) t :=
  ⟨fun _ => h, drawnBit s, exec_eq_execWith i s ▸ e⟩

theorem agent_move {s t : State} {i : Instr} {b : Bool} (h : byHost i = false)
    (e : execWith b i s = .next t) : Moves s (.instr i) t :=
  ⟨fun hi => by simp [h] at hi, b, e⟩

/-- A configured block with both flags pending and the pin asserted, at the counter's last value. -/
def busy : State := pending 0b11#2 .asserted (dev 4 3 (bank 1 2 0) (bank 1 2 3))
/-- The same with the pin deasserted and the counter at 0. -/
def idle : State := pending 0b11#2 .deasserted (dev 4 0 (bank 0 4 4) (bank 1 3 4))
/-- A stopped block. -/
def stopped : State := { busy with ctrl := 0xE#4 }
/-- From reset, a host about to issue one word. -/
def toIssue (w : Word) : State := issuing [.toBlock w] State.reset
/-- The host's turn is scheduled. -/
def hostTurn (s : State) : State := { s with schedule := [.host] }

theorem witness_WorkedEncodings : State.reset.live = true := by decide

theorem witness_DecodeOfEncode : (Instr.setDuty 3#2 0xFFFF#16).wellFormed = true ∧
    (Instr.latch 2#2).wellFormed = true := by decide

theorem witness_EncodeOfDecode : decodeWord 0x2C00FFFF#32 = .ok (.setDuty 3#2 0xFFFF#16) ∧
    decodeWord 0x3000000F#32 = .ok (.writeCtrl 0xF#4) := ⟨rfl, rfl⟩

/-- A word of each operation code, and an illegal word the host is about to issue. -/
theorem witness_HostWordDecoding :
    (0x1000FFFF#32).toNat = 1 * 2 ^ 28 + 0 * 2 ^ 26 + 0 * 2 ^ 16 + 65535 ∧
    (0x2C00FFFF#32).toNat = 2 * 2 ^ 28 + 3 * 2 ^ 26 + 0 * 2 ^ 16 + 65535 ∧
    (0x3000000F#32).toNat = 3 * 2 ^ 28 + 0 * 2 ^ 26 + 0 * 2 ^ 16 + 15 ∧
    (0x40000000#32).toNat = 4 * 2 ^ 28 + 0 * 2 ^ 26 + 0 * 2 ^ 16 + 0 ∧
    (0x30000010#32).toNat = 3 * 2 ^ 28 + 0 * 2 ^ 26 + 0 * 2 ^ 16 + 16 ∧
    (hostTurn (toIssue 0x30000010#32)).live = true ∧
    (hostTurn (toIssue 0x30000010#32)).schedule = [.host] ∧
    (hostTurn (toIssue 0x30000010#32)).pc.stmt? = some (.toBlock 0x30000010#32) ∧
    (decodeHost 0x30000010#32).toOption = none := by decide

theorem witness_IllegalHostWords : (hostTurn (toIssue 0#32)).live = true ∧
    (hostTurn (toIssue 0#32)).schedule = [.host] ∧
    (hostTurn (toIssue 0#32)).pc.stmt? = some (.toBlock 0#32) ∧
    (decodeHost 0#32).toOption = none := by decide

/-- A label turn, a host word, a host's own word, and a word placed from outside. -/
theorem witness_StepRunsDecodedInstruction :
    ({ busy with schedule := [.label 0x80000000#32] }.live = true ∧
      (decodeLabel 0x80000000#32).toOption = some .tick) ∧
    ((hostTurn (toIssue 0x40000000#32)).pc.stmt? = some (.toBlock 0x40000000#32) ∧
      (decodeHost 0x40000000#32).toOption = some .readCnt) ∧
    ((hostTurn (issuing [.own 0x50000005#32] busy)).pc.stmt? = some (.own 0x50000005#32) ∧
      (decodeOwn 0x50000005#32).toOption = some (.delay 5#16)) ∧
    ((hostTurn (issuing [.own 0x40000000#32] busy)).live = true ∧
      (decodeOwn 0x40000000#32).toOption = none ∧
      (decodeHost 0x40000000#32).toOption = some .readCnt) ∧
    ((hostTurn (issuing [.own 0x50010005#32] busy)).schedule = [.host] ∧
      (decodeOwn 0x50010005#32).toOption = none ∧ (decodeHost 0x50010005#32).toOption = none) ∧
    ({ busy with schedule := [.label 0xBC000000#32] }.live = true ∧
      (decodeLabel 0xBC000000#32).toOption = none) ∧
    (State.reset.live = true ∧ (Instr.latch 1#2).wellFormed = true ∧ byHost (.latch 1#2) = false ∧
      byHost .readCnt = true) := by decide

theorem witness_EnablingConditions : byHost (.delay 0#16) = true := by decide

theorem witness_StepIsSomeAgentsMove : ∃ t, step { busy with schedule := [.label 0x80000000#32] } =
    .next t := ⟨_, rfl⟩

/-- A host about to issue its own word, a `DELAY` or a malformed one, and a block in which nothing is
enabled. -/
theorem witness_FreeStepTakesAnEnabledMove :
    (issuing [.own 0x50000005#32] stopped).live = true ∧
    (issuing [.own 0x50000005#32] stopped).schedule = [] ∧
    (issuing [.own 0x50010005#32] stopped).live = true ∧
    (issuing [.own 0x50010005#32] stopped).schedule = [] ∧
    enabledTurns { stopped with ctrl := 0#4, act := bank 1 2 0 } = [] ∧
    step { stopped with ctrl := 0#4, act := bank 1 2 0 } = .fault .runEnded ∧
    (raiseFault .badPeriod 0x10000000#32 busy).fault = some (.badPeriod, 0x10000000#32) ∧
    (refuse .reconfigure 0x10000008#32 busy).refused = some (.reconfigure, 0x10000008#32) :=
  ⟨by decide, by decide, by decide, by decide, by decide, rfl, rfl, rfl⟩

/-- `P = 0`, a second `CONFIGURE`, and a first one with the least and the largest period. -/
theorem witness_ConfigureStartsTheCounter :
    ((0x1000FFFF#32).toNat / 2 ^ 28 = 1 ∧ (0x1000FFFF#32).toNat / 2 ^ 16 % 4096 = 0) ∧
    ((0x14000001#32).toNat / 2 ^ 28 = 1 ∧ (0x14000001#32).toNat / 2 ^ 16 % 4096 ≠ 0) ∧
    busy.live = true ∧ busy.configured = true ∧ (8#16 : Val) ≠ 0#16 ∧
    State.reset.live = true ∧ State.reset.configured = false ∧ (1#16 : Val) ≠ 0#16 ∧
    (65535#16 : Val) ≠ 0#16 ∧
    ∃ t, exec (.configure 1#16) State.reset = .next t ∧ ∃ u, exec .tick t = .next u :=
  ⟨by decide, by decide, by decide, by decide, by decide, by decide, by decide, by decide, by decide,
    _, rfl, _, rfl⟩

theorem witness_WriteCtrlWritesTheEnables :
    ((0x3000000F#32).toNat / 2 ^ 28 = 3 ∧ (0x3000000F#32).toNat / 2 ^ 4 % 2 ^ 24 = 0) ∧
    ((0x30000010#32).toNat / 2 ^ 28 = 3 ∧ (0x30000010#32).toNat / 2 ^ 4 % 2 ^ 24 ≠ 0) ∧
    (State.reset.live = true ∧ (0x1#4).getLsbD 0 = true ∧ State.reset.configured = false) ∧
    (busy.live = true ∧ busy.configured = true ∧ (0xE#4).getLsbD 0 = false) := by decide

theorem witness_ReadCntReturnsTheCounter :
    (0x40000000#32).toNat / 2 ^ 28 = 4 ∧ (0x40000001#32).toNat / 2 ^ 28 = 4 ∧
    State.reset.live = true ∧ BlockInv State.reset ∧ State.reset.configured = false := by decide

theorem witness_SetDutyWritesOneCompareValue :
    ((0x2C00FFFF#32).toNat / 2 ^ 28 = 2 ∧ (0x2C00FFFF#32).toNat / 2 ^ 16 % 1024 = 0) ∧
    ((0x20010000#32).toNat / 2 ^ 28 = 2 ∧ (0x20010000#32).toNat / 2 ^ 16 % 1024 ≠ 0) ∧
    State.reset.live = true := by decide

theorem witness_DelayMovesOnlyTheHost : State.reset.live = true := by decide

/-- A wrap, a count up, an active value at the period, and a block that does not tick. -/
theorem witness_TickCountsAndRaisesEvents :
    (busy.live = true ∧ busy.configured = true ∧ busy.cen = true ∧ busy.cnt = busy.period - 1#16) ∧
    (idle.live = true ∧ idle.configured = true ∧ idle.cen = true ∧ idle.cnt ≠ idle.period - 1#16) ∧
    (BlockInv (dev 4 3 (bank 0 0 4) (bank 0 0 0)) ∧
      peek (fun t => t.act.u2) (exec .tick (dev 4 3 (bank 0 0 4) (bank 0 0 0))) = some 4#16) ∧
    stopped.cen = false := by decide

/-- Each unit, and an active value that equals the written one. -/
theorem witness_LatchLoadsOneActiveValue :
    idle.live = true ∧ idle.act.get .hw0 ≠ idle.ccr.get .hw0 ∧
    idle.act.get .hw1 ≠ idle.ccr.get .hw1 ∧ busy.live = true ∧ busy.act.get .sw ≠ busy.ccr.get .sw ∧
    busy.act.get .hw0 = busy.ccr.get .hw0 ∧ (2#2 : BitVec 2) ≠ 3#2 := by decide

theorem witness_ServicePbAssertsBelowTheDuty :
    (idle.live = true ∧ idle.gie = true ∧ idle.pbie = true ∧ idle.pbf = true) ∧
    State.reset.gie = false := by decide

theorem witness_ServiceCmDeassertsFromTheDuty :
    (busy.live = true ∧ busy.gie = true ∧ busy.cmie = true ∧ busy.cmf = true) ∧
    State.reset.gie = false := by decide

theorem witness_FaultStopsEveryAgent :
    (raiseFault .badPeriod 0x10000000#32 busy).fault = some (.badPeriod, 0x10000000#32) := by decide

/-- A state with a refusal recorded, and the move that records one. -/
theorem witness_RefusalStopsEveryAgent :
    ((refuse .reconfigure 0x10000008#32 busy).fault = none ∧
      (refuse .reconfigure 0x10000008#32 busy).refused = some (.reconfigure, 0x10000008#32)) ∧
    ∃ t, Moves (issuing [.toBlock 0x10000008#32] busy) (.instr (.configure 8#16)) t ∧
      busy.refused = none ∧ t.refused = some (.reconfigure, 0x10000008#32) :=
  ⟨by decide, _, host_move rfl rfl, rfl, rfl⟩

/-- A move that raises each of the four faults. -/
theorem witness_FaultCodesComplete :
    (∃ t, Moves (toIssue 0#32) (.illegal 0#32) t ∧ t.fault = some (.illegalOp, 0#32)) ∧
    (∃ t, Moves (toIssue 0x2C000001#32) (.instr (.setDuty 3#2 1#16)) t ∧
      t.fault = some (.badChannel, 0x2C000001#32)) ∧
    (∃ t, Moves (toIssue 0x10000000#32) (.instr (.configure 0#16)) t ∧
      t.fault = some (.badPeriod, 0x10000000#32)) ∧
    (∃ t, Moves (toIssue 0x30000001#32) (.instr (.writeCtrl 0x1#4)) t ∧
      t.fault = some (.notConfigured, 0x30000001#32)) ∧
    State.reset.fault = none :=
  ⟨⟨_, ⟨rfl, rfl, rfl⟩, rfl⟩, ⟨_, host_move rfl rfl, rfl⟩, ⟨_, host_move rfl rfl, rfl⟩,
    ⟨_, host_move rfl rfl, rfl⟩, rfl⟩

theorem witness_WhatIsNoFault : busy.live = true ∧ (2#2 : BitVec 2) ≠ 3#2 ∧
    (0xE#4).getLsbD 0 = false ∧ (∃ t, exec .servicePb busy = .next t) ∧
    (∃ t, exec .serviceCm busy = .next t) ∧ (∃ t, exec .tick busy = .next t) ∧
    busy.pbf = true ∧ busy.cmf = true :=
  ⟨rfl, by decide, by decide, ⟨_, rfl⟩, ⟨_, rfl⟩, ⟨_, rfl⟩, rfl, rfl⟩

/-- A move of each agent, each changing what it may. -/
theorem witness_AgentsWriteDisjointParts :
    (∃ t, Moves (toIssue 0x10000004#32) (.instr (.configure 4#16)) t ∧ t.period = 4#16) ∧
    (∃ t, Moves busy (.instr .tick) t ∧ t.act ≠ busy.act) ∧
    (∃ t, Moves busy (.instr (.latch 2#2)) t ∧ t.act ≠ busy.act) ∧
    (∃ t, Moves idle (.instr .servicePb) t ∧ t.estate ≠ idle.estate ∧ t.pbf = false) ∧
    (∃ t, Moves busy (.instr .serviceCm) t ∧ t.estate ≠ busy.estate ∧ t.cmf = false) :=
  ⟨⟨_, host_move rfl rfl, rfl⟩, ⟨_, agent_move (b := true) rfl rfl, by decide⟩,
    ⟨_, agent_move (b := true) rfl rfl, by decide⟩,
    ⟨_, agent_move (b := true) rfl rfl, by decide, rfl⟩,
    ⟨_, agent_move (b := true) rfl rfl, by decide, rfl⟩⟩

theorem witness_OnlyTheHostWritesDutyValues :
    ∃ t, Moves (toIssue 0x28000007#32) (.instr (.setDuty 2#2 7#16)) t ∧
      t.ccr.get .sw ≠ State.reset.ccr.get .sw ∧ ∃ u, exec .readCnt busy = .next u ∧
      byHost .readCnt = true := ⟨_, host_move rfl rfl, by decide, _, rfl, rfl⟩

/-- A first `CONFIGURE`, a move of a configured block, and a block not configured. -/
theorem witness_ConfiguredIsSetOnceAndGates :
    (∃ t, Moves (toIssue 0x10000004#32) (.instr (.configure 4#16)) t ∧
      State.reset.configured = false ∧ t.configured = true) ∧
    (∃ t, Moves busy (.instr .tick) t ∧ busy.configured = true) ∧
    State.reset.live = true ∧ (4#16 : Val) ≠ 0#16 ∧ (0x1#4).getLsbD 0 = true :=
  ⟨⟨_, host_move rfl rfl, rfl, rfl⟩, ⟨_, agent_move (b := true) rfl rfl, rfl⟩, rfl, by decide,
    by decide⟩

theorem witness_PeriodIsWrittenOnce :
    (∃ t, Moves (toIssue 0x1000FFFF#32) (.instr (.configure 65535#16)) t ∧
      t.period ≠ State.reset.period) ∧ ∃ t, Moves busy (.instr .tick) t ∧ busy.configured = true :=
  ⟨⟨_, host_move rfl rfl, by decide⟩, ⟨_, agent_move (b := true) rfl rfl, rfl⟩⟩

theorem witness_OnlyServicesChangeTheEdgeState :
    (∃ t, Moves idle (.instr .servicePb) t ∧ t.estate ≠ idle.estate) ∧
    ∃ t, Moves busy (.instr .serviceCm) t ∧ t.estate ≠ busy.estate :=
  ⟨⟨_, agent_move (b := true) rfl rfl, by decide⟩, ⟨_, agent_move (b := true) rfl rfl, by decide⟩⟩

/-- A latch and a wrap. -/
theorem witness_ActiveValueFollowsLatchOrWrap :
    (∃ t, Moves idle (.instr (.latch 1#2)) t ∧ t.act.get .hw1 ≠ idle.act.get .hw1) ∧
    (∃ t, Moves busy (.instr .tick) t ∧ t.act.get .sw ≠ busy.act.get .sw) ∧
    (∃ t, execWith true (.latch (chOf .hw0)) idle = .next t) ∧
    (∃ t, exec .tick busy = .next t) ∧ busy.cnt = busy.period - 1#16 :=
  ⟨⟨_, agent_move (b := true) rfl rfl, by decide⟩, ⟨_, agent_move (b := true) rfl rfl, by decide⟩,
    ⟨_, rfl⟩, ⟨_, rfl⟩, rfl⟩

/-- Each flag set and cleared; a tick under other enables; masking and unmasking. -/
theorem witness_PendingFlags :
    (∃ t, Moves busy (.instr .servicePb) t ∧ busy.pbf = true ∧ t.pbf = false) ∧
    (∃ t, Moves busy (.instr .serviceCm) t ∧ busy.cmf = true ∧ t.cmf = false) ∧
    (∃ t, Moves (pending 0b00#2 .asserted busy) (.instr .tick) t ∧ t.pbf = true ∧ t.cmf = true) ∧
    (∃ t, Moves (pending 0b00#2 .asserted (dev 4 2 (bank 0 0 2) (bank 0 0 0)))
      (.instr (.latch 2#2)) t ∧ t.cmf = true) ∧
    (0x1#4).getLsbD 0 = busy.cen ∧ (∃ t, exec .tick busy = .next t) ∧
    (∃ t, exec .tick { busy with ctrl := 0x1#4 } = .next t) ∧
    (∃ t, latchWith true 2#2 busy = .next t) ∧
    busy.live = true ∧ busy.configured = true ∧ (0x1#4).getLsbD 3 = false ∧
    (0xF#4).getLsbD 3 = true ∧ (0xF#4).getLsbD 1 = true ∧ (0xF#4).getLsbD 2 = true :=
  ⟨⟨_, agent_move (b := true) rfl rfl, rfl, rfl⟩, ⟨_, agent_move (b := true) rfl rfl, rfl, rfl⟩,
    ⟨_, agent_move (b := true) rfl rfl, rfl, rfl⟩, ⟨_, agent_move (b := true) rfl rfl, rfl⟩,
    rfl, ⟨_, rfl⟩, ⟨_, rfl⟩, ⟨_, rfl⟩, rfl, rfl, rfl, rfl, rfl, rfl⟩

theorem witness_IdempotentHostOperations :
    (∃ t, exec .readCnt busy = .next t) ∧
    (∃ t, exec (.setDuty 1#2 9#16) busy = .next t ∧ ∃ u, exec (.setDuty 1#2 9#16) t = .next u) ∧
    (∃ t, exec (.writeCtrl 0#4) busy = .next t ∧ ∃ u, exec (.writeCtrl 0#4) t = .next u) ∧
    State.reset.live = true ∧ State.reset.configured = false ∧
    ∃ t, exec (.configure 4#16) State.reset = .next t :=
  ⟨⟨_, rfl⟩, ⟨_, rfl, _, rfl⟩, ⟨_, rfl, _, rfl⟩, rfl, rfl, ⟨_, rfl⟩⟩

theorem witness_StepKeepsTheInvariant : BlockInv { busy with schedule := [.label 0x80000000#32] } ∧
    ∃ t, step { busy with schedule := [.label 0x80000000#32] } = .next t := ⟨by decide, _, rfl⟩

/-- A state that a run from reset reaches, configured. -/
theorem witness_ReachableStatesMeetTheInvariants :
    ∃ s, Reachable (.other [.toBlock 0x10000004#32] .ends) s ∧ s.configured = true :=
  ⟨_, .move .reset (host_move (i := .configure 4#16) rfl rfl), rfl⟩

theorem witness_CounterNeverOverflows : (BlockInv busy ∧ busy.configured = true) ∧
    (BlockInv idle ∧ idle.configured = true ∧ idle.cnt ≠ idle.period - 1#16) ∧
    ∃ t, exec .tick busy = .next t := ⟨by decide, by decide, _, rfl⟩

theorem witness_PeriodOne : (BlockInv (dev 1 0 (bank 0 0 1) (bank 0 0 0)) ∧
    (dev 1 0 (bank 0 0 1) (bank 0 0 0)).configured = true ∧
    (dev 1 0 (bank 0 0 1) (bank 0 0 0)).live = true ∧
    (dev 1 0 (bank 0 0 1) (bank 0 0 0)).cen = true ∧
    (dev 1 0 (bank 0 0 1) (bank 0 0 0)).cmf = false) ∧
    ∃ t, exec .tick (dev 1 0 (bank 0 0 1) (bank 0 0 0)) = .next t := ⟨by decide, _, rfl⟩

/-- A stopped counter, with a latch and both services still taken. -/
theorem witness_StoppedCounter : stopped.cen = false ∧ BlockInv stopped ∧ stopped.live = true ∧
    stopped.act.get .sw ≠ stopped.ccr.get .sw ∧
    (∃ t, Moves stopped (.instr .servicePb) t ∧ t.pbf ≠ stopped.pbf) ∧
    (∃ t, Moves stopped (.instr .serviceCm) t ∧ t.cmf ≠ stopped.cmf) ∧
    (∃ t, Moves stopped (.instr (.latch 2#2)) t ∧ t.act ≠ stopped.act) ∧
    BlockInv (readRun.state 0) ∧ (readRun.state 0).configured = false ∧
    ∀ n p, 0 ≤ n → readRun.move n ≠ .instr (.configure p) :=
  ⟨by decide, by decide, by decide, by decide, ⟨_, agent_move (b := true) rfl rfl, by decide⟩,
    ⟨_, agent_move (b := true) rfl rfl, by decide⟩, ⟨_, agent_move (b := true) rfl rfl, by decide⟩,
    by decide, rfl, fun _ _ _ h => by simp [readRun] at h⟩

/-- In the run with duty 1 the moves are `TICK`, `SERVICE_CM`, `TICK` (the wrap). -/
theorem witness_FirstPeriodBoundary :
    (∃ t, exec (.configure 4#16) State.reset = .next t) ∧
    (∃ t, exec (.writeCtrl 0xF#4) busy = .next t) ∧
    BlockInv ((twoRun 1).state 0) ∧ ((twoRun 1).state 0).configured = true ∧
    ((twoRun 1).state 0).cnt = 0#16 ∧ ((twoRun 1).state 0).pbf = false ∧
    (twoRun 1).ticks 0 2 < ((twoRun 1).state 0).period.toNat ∧
    (twoRun 1).ticks 0 2 + 1 = ((twoRun 1).state 0).period.toNat ∧
    (twoRun 1).ticksAt (0 + 2) = true :=
  ⟨⟨_, rfl⟩, ⟨_, rfl⟩, by decide, by decide, by decide, by decide, by decide, by decide, by decide⟩

/-- A duty below the period (a match) and one at it (none). -/
theorem witness_EventsPerPeriod :
    (BlockInv ((twoRun 1).state 0) ∧ ((twoRun 1).state 0).configured = true ∧
      (twoRun 1).ticks 0 3 = ((twoRun 1).state 0).period.toNat) ∧
    (BlockInv ((twoRun 2).state 0) ∧ ((twoRun 2).state 0).configured = true ∧
      (twoRun 2).ticks 0 2 = ((twoRun 2).state 0).period.toNat) ∧
    (∀ j, j ≤ 3 → ((twoRun 1).state (0 + j)).act.u2 = 1#16) ∧
    (∀ j, j ≤ 2 → ((twoRun 2).state (0 + j)).act.u2 = 2#16) :=
  ⟨by decide, by decide, fun j _ => by rw [(twoRun_values 1 _).2.1]; rfl,
    fun j _ => by rw [(twoRun_values 2 _).2.1]; rfl⟩

theorem witness_BoundaryDutyValues :
    (dev 4 3 (bank 0 4 0) (bank 0 4 0)).act.get .hw0 = 0#16 ∧
    BlockInv (dev 4 3 (bank 0 4 0) (bank 0 4 0)) ∧
    (dev 4 3 (bank 0 4 0) (bank 0 4 0)).configured = true ∧
    (dev 4 3 (bank 0 4 0) (bank 0 4 0)).period ≤ (dev 4 3 (bank 0 4 0) (bank 0 4 0)).act.get .hw1 ∧
    Chan.hw1 ≠ Chan.sw := by decide

/-- A rise at the wrap, a fall at the match, a change by a latch. -/
theorem witness_HardwareOutputChanges :
    (∃ t, Moves (dev 4 3 (bank 1 2 0) (bank 1 2 0)) (.instr .tick) t ∧
      BlockInv (dev 4 3 (bank 1 2 0) (bank 1 2 0)) ∧
      t.act.get .hw0 = 1#16 ∧ (0#16 : Val) < 1#16 ∧ (1#16 : Val) < 4#16 ∧ out .hw0 t = true) ∧
    (∃ t, Moves (dev 4 0 (bank 1 2 0) (bank 1 2 0)) (.instr .tick) t ∧
      t.act.get .hw0 = 1#16 ∧ out .hw0 (dev 4 0 (bank 1 2 0) (bank 1 2 0)) = true ∧
      out .hw0 t = false) ∧
    ∃ t, Moves (dev 4 2 (bank 3 0 0) (bank 1 0 0)) (.instr (.latch 0#2)) t ∧
      out .hw0 t ≠ out .hw0 (dev 4 2 (bank 3 0 0) (bank 1 0 0)) :=
  ⟨⟨_, agent_move (b := true) rfl rfl, by decide, rfl, by decide, by decide, rfl⟩,
    ⟨_, agent_move (b := true) rfl rfl, rfl, rfl, rfl⟩,
    ⟨_, agent_move (b := true) rfl rfl, by decide⟩⟩

/-- A duty inside the period and one at it. -/
theorem witness_HardwareDutyLaw :
    (BlockInv ((twoRun 1).state 0) ∧ ((twoRun 1).state 0).configured = true ∧
      ((twoRun 1).state 0).cnt = 0#16 ∧
      (twoRun 1).ticks 0 3 = ((twoRun 1).state 0).period.toNat) ∧
    (BlockInv ((twoRun 2).state 0) ∧ ((twoRun 2).state 0).configured = true ∧
      ((twoRun 2).state 0).cnt = 0#16 ∧
      (twoRun 2).ticks 0 2 = ((twoRun 2).state 0).period.toNat) ∧
    (∀ j, j < 3 → ((twoRun 1).state (0 + j)).act.get .hw0 = 1#16) ∧
    (∀ j, j < 2 → ((twoRun 2).state (0 + j)).act.get .hw1 = 2#16) ∧ Chan.hw0 ≠ Chan.sw :=
  ⟨by decide, by decide, fun j _ => by rw [(twoRun_values 1 _).2.1]; rfl,
    fun j _ => by rw [(twoRun_values 2 _).2.1]; rfl, by decide⟩

theorem witness_HardwareChannelsAreIndependent :
    (∃ t, execWith true .servicePb idle = .next t) ∧ (∃ t, execWith false .serviceCm busy = .next t) ∧
    (∃ t, execWith true .tick busy = .next t) ∧ (∃ t, execWith true (.latch 2#2) busy = .next t) ∧
    (∃ t, execWith true (.latch (chOf .hw0)) idle = .next t) ∧ Chan.hw0 ≠ Chan.sw ∧
    (bank 0 7 8).get .hw0 = idle.ccr.get .hw0 ∧ (bank 1 9 9).get .hw0 = idle.act.get .hw0 :=
  ⟨⟨_, rfl⟩, ⟨_, rfl⟩, ⟨_, rfl⟩, ⟨_, rfl⟩, ⟨_, rfl⟩, by decide, rfl, rfl⟩

/-- Services whose guards fail, by either half of each guard. -/
theorem witness_FailedGuardStillAcknowledges :
    ((∃ t, servicePbWith true busy = .next t) ∧ busy.estate ≠ .deasserted) ∧
    ((∃ t, servicePbWith true (pending 0b01#2 .deasserted busy) = .next t) ∧
      ¬ busy.cnt < drawnDuty true busy) ∧
    ((∃ t, serviceCmWith true idle = .next t) ∧ idle.estate ≠ .asserted) ∧
    ((∃ t, serviceCmWith true (pending 0b10#2 .asserted idle) = .next t) ∧
      ¬ drawnDuty true idle ≤ idle.cnt) :=
  ⟨⟨⟨_, rfl⟩, by decide⟩, ⟨⟨_, rfl⟩, by decide⟩, ⟨⟨_, rfl⟩, by decide⟩, ⟨⟨_, rfl⟩, by decide⟩⟩

/-- Written and active value different, and equal; then a `SET_DUTY 2`, a `LATCH 2` and a wrap. -/
theorem witness_ServiceDrawsWrittenOrActive :
    (busy.live = true ∧ pbEnabled busy = true ∧ cmEnabled busy = true ∧ busy.ccr.u2 ≠ busy.act.u2) ∧
    (∃ t, Moves idle (.instr .servicePb) t ∧ idle.ccr.u2 = idle.act.u2) ∧
    (∃ t, Moves idle (.instr .serviceCm) t ∧ idle.ccr.u2 = idle.act.u2) ∧
    (∃ t, Moves (issuing [.toBlock 0x28000007#32] idle) (.instr (.setDuty 2#2 7#16)) t ∧
      t.ccr.u2 ≠ t.act.u2) ∧
    (∃ t, Moves busy (.instr (.latch 2#2)) t) ∧
    ∃ t, Moves busy (.instr .tick) t ∧ busy.cnt = busy.period - 1#16 :=
  ⟨by decide, ⟨_, agent_move (b := true) rfl rfl, rfl⟩, ⟨_, agent_move (b := true) rfl rfl, rfl⟩,
    ⟨_, host_move rfl rfl, by decide⟩, ⟨_, agent_move (b := true) rfl rfl⟩,
    ⟨_, agent_move (b := true) rfl rfl, rfl⟩⟩

/-- A `SERVICE_PB` and a `SERVICE_CM` of two different states, each with a change of the edge state in
one of them; then both orders, each with one change of the edge state. -/
theorem witness_NoDoubleToggle :
    ((∃ t, servicePbWith true idle = .next t ∧ t.estate ≠ idle.estate) ∧
      (∃ v, serviceCmWith false { idle with estate := .asserted, rd := 1#32 } = .next v) ∧
      drawnDuty true idle = drawnDuty false { idle with estate := .asserted, rd := 1#32 }) ∧
    ((∃ t, servicePbWith true { busy with rd := 1#32 } = .next t) ∧
      (∃ v, serviceCmWith true busy = .next v ∧ v.estate ≠ busy.estate) ∧
      drawnDuty true { busy with rd := 1#32 } = drawnDuty true busy) ∧
    drawnDuty true idle = drawnDuty false idle ∧
    (∃ t, servicePbWith true idle = .next t ∧ ∃ u, serviceCmWith false t = .next u) ∧
    ∃ t, serviceCmWith true idle = .next t ∧ ∃ u, servicePbWith false t = .next u :=
  ⟨⟨⟨_, rfl, by decide⟩, ⟨_, rfl⟩, by decide⟩, ⟨⟨_, rfl⟩, ⟨_, rfl, by decide⟩, by decide⟩, by decide,
    ⟨_, rfl, _, rfl⟩, ⟨_, rfl, _, rfl⟩⟩

theorem witness_ServicesAreIdempotent :
    (busy.estate = .asserted ∧ ∃ t, servicePbWith true busy = .next t) ∧
    (idle.estate = .deasserted ∧ ∃ t, serviceCmWith true idle = .next t) :=
  ⟨⟨rfl, _, rfl⟩, ⟨rfl, _, rfl⟩⟩

/-- Both services and the wrap at duty 0, and a run at duty 0. -/
theorem witness_DutyZeroIsAlwaysOff :
    (∃ t, servicePbWith true (pending 0b11#2 .deasserted (dev 4 3 (bank 0 0 0) (bank 0 0 0))) =
      .next t) ∧
    (∃ t, serviceCmWith true (pending 0b11#2 .asserted (dev 4 3 (bank 0 0 0) (bank 0 0 0))) =
      .next t) ∧
    (∃ t, exec .tick (dev 4 3 (bank 0 0 0) (bank 0 0 0)) = .next t) ∧
    (∀ n, 0 ≤ n → ((twoRun 0).state n).ccr.u2 = 0#16 ∧ ((twoRun 0).state n).act.u2 = 0#16) ∧
    ((twoRun 0).state 0).estate = .deasserted :=
  ⟨⟨_, rfl⟩, ⟨_, rfl⟩, ⟨_, rfl⟩, fun n _ => by
    rw [(twoRun_values 0 n).1, (twoRun_values 0 n).2.1]; exact ⟨rfl, rfl⟩, rfl⟩

/-- A run at duty 2 of 2, whose third move services the period boundary, and one that starts with a
compare match pending, whose fourth move does. -/
theorem witness_DutyAtThePeriodIsAlwaysOn :
    BlockInv ((twoRun 2).state 0) ∧ ((twoRun 2).state 0).configured = true ∧
    ((twoRun 2).state 0).period ≤ 2#16 ∧ ((twoRun 2).state 0).cmf = false ∧
    (∀ n, 0 ≤ n → ((twoRun 2).state n).ccr.u2 = 2#16 ∧ ((twoRun 2).state n).act.u2 = 2#16) ∧
    (twoRun 2).ticksAt 0 = true ∧ (twoRun 2).move 2 = .instr .servicePb ∧
    (BlockInv (lateRun.state 0) ∧ (lateRun.state 0).configured = true ∧
      (lateRun.state 0).period ≤ 2#16 ∧ (lateRun.state 0).cmf = true ∧
      lateRun.move 3 = .instr .servicePb) ∧
    ∀ n, 0 ≤ n → (lateRun.state n).ccr.u2 = 2#16 ∧ (lateRun.state n).act.u2 = 2#16 :=
  ⟨by decide, by decide, by decide, by decide, fun n _ => by
    rw [(twoRun_values 2 n).1, (twoRun_values 2 n).2.1]; exact ⟨rfl, rfl⟩, by decide, by decide,
    by decide, fun n _ => lateRun_values n⟩

/-- In time and late, for each service. -/
theorem witness_EveryServicedEventReattempts :
    ((∃ t, servicePbWith true idle = .next t) ∧ idle.cnt < idle.ccr.u2 ∧ idle.cnt < idle.act.u2) ∧
    ((∃ t, serviceCmWith true busy = .next t) ∧ busy.ccr.u2 ≤ busy.cnt ∧ busy.act.u2 ≤ busy.cnt) ∧
    (∃ t, servicePbWith true busy = .next t) ∧ ∃ t, serviceCmWith true idle = .next t :=
  ⟨⟨⟨_, rfl⟩, by decide, by decide⟩, ⟨⟨_, rfl⟩, by decide, by decide⟩, ⟨_, rfl⟩, ⟨_, rfl⟩⟩

theorem witness_FirstPeriodIsDeasserted :
    BlockInv ((twoRun 1).state 0) ∧ ((twoRun 1).state 0).configured = true ∧
    ((twoRun 1).state 0).cnt = 0#16 ∧ ((twoRun 1).state 0).pbf = false ∧
    ((twoRun 1).state 0).estate = .deasserted ∧
    (twoRun 1).ticks 0 2 < ((twoRun 1).state 0).period.toNat := by decide

/-- The run at duty 1 of 2: its third move is the wrap, and after the fourth no flag is pending. -/
theorem witness_SoftwareMatchesHardwareWaveform :
    (twoRun 1).Latency (some 0) ∧ BlockInv ((twoRun 1).state 0) ∧
    (∀ n, 0 ≤ n → ((twoRun 1).state n).ccr.u2 = 1#16 ∧ ((twoRun 1).state n).act.u2 = 1#16) ∧
    (twoRun 1).move 2 = .instr .tick ∧
    ((twoRun 1).state 2).cnt = ((twoRun 1).state 2).period - 1#16 ∧
    ((twoRun 1).state 4).pbf = false ∧ ((twoRun 1).state 4).cmf = false :=
  ⟨promptRun_latency _ _, by decide, fun n _ => by
    rw [(twoRun_values 1 n).1, (twoRun_values 1 n).2.1]; exact ⟨rfl, rfl⟩, by decide, by decide,
    by decide, by decide⟩

/-- State 3 has the period boundary pending, state 1 the compare match. -/
theorem witness_FairRunServicesPendingEvents : (twoRun 1).WeaklyFair ∧
    (∀ m, 1 ≤ m → ((twoRun 1).state m).gie = true ∧ ((twoRun 1).state m).pbie = true ∧
      ((twoRun 1).state m).cmie = true) ∧
    ((twoRun 1).state 3).pbf = true ∧ ((twoRun 1).state 1).cmf = true :=
  ⟨promptRun_fair _ _, fun m _ => by
    simp only [State.gie, State.pbie, State.cmie, (twoRun_values 1 m).2.2.1]; decide,
    by decide, by decide⟩

theorem witness_FairRunCountsForever : (twoRun 1).WeaklyFair ∧ BlockInv ((twoRun 1).state 0) ∧
    ((twoRun 1).state 0).configured = true ∧ (∀ m, 0 ≤ m → ((twoRun 1).state m).cen = true) ∧
    1#16 < ((twoRun 1).state 0).period :=
  ⟨promptRun_fair _ _, by decide, by decide, fun m _ => by
    simp only [State.cen, (twoRun_values 1 m).2.2.1]; decide, by decide⟩

theorem witness_FadeProgramText : 2 ≤ (2#16 : Val).toNat := by decide

theorem witness_HostSequenceIsFixed :
    (∃ t, Moves busy (.instr .tick) t ∧ (Move.instr .tick).isHost = false) ∧
    (∃ t, Moves (toIssue 0x20000003#32) (.instr (.setDuty 0#2 3#16)) t ∧ t.live = true) ∧
    (∃ t, Moves (issuing [.toBlock 0x20000003#32] busy) (.instr (.setDuty 0#2 3#16)) t) ∧
    (toIssue 0x20000003#32).pc = (issuing [.toBlock 0x20000003#32] busy).pc :=
  ⟨⟨_, agent_move (b := true) rfl rfl, rfl⟩, ⟨_, host_move rfl rfl, rfl⟩, ⟨_, host_move rfl rfl⟩, rfl⟩

/-- A move and a step from the invariant, and a run from reset of the Fade Sequencer to
`Run(0, 0, 2)`, through `Run(0, 0, 1)`. -/
theorem witness_FadeDutyValues :
    (FadeInv State.reset ∧ ∃ m t, Moves State.reset m t) ∧
    (FadeInv (hostTurn State.reset) ∧ ∃ t, step (hostTurn State.reset) = .next t) ∧
    (∃ s, Reachable (.fade .init0) s ∧ s.pc = .fade (.run .p0 0 .s1)) ∧
    ∃ s, Reachable (.fade .init0) s ∧ s.pc = .fade (.run .p0 0 .s2) := by
  have h0 : Reachable (.fade .init0) State.reset := .reset
  have h1 := h0.move (host_move (fetchTurn_fade rfl) (execConfigure_next.2
    ⟨rfl, .inr (.inr ⟨fade_period_ne_zero, rfl, rfl⟩)⟩))
  have h2 := h1.move (host_move (fetchTurn_fade rfl) (execWriteCtrl_next.2
    ⟨rfl, .inr ⟨fun _ => rfl, rfl⟩⟩))
  have h3 := h2.move (host_move (fetchTurn_fade rfl) (execSetDuty_next.2
    ⟨rfl, .inl ⟨_, rfl, rfl⟩⟩))
  have h4 := h3.move (host_move (fetchTurn_fade rfl) (execSetDuty_next.2
    ⟨rfl, .inl ⟨_, rfl, rfl⟩⟩))
  have hs : ∃ t, step (hostTurn State.reset) = .next t := by
    rw [step_instr rfl rfl (fetchTurn_fade (p := .init0) rfl)]
    exact ⟨_, execConfigure_next.2 ⟨rfl, .inr (.inr ⟨fade_period_ne_zero, rfl, rfl⟩)⟩⟩
  exact ⟨⟨⟨rfl, rfl⟩, _, _, host_move (fetchTurn_fade rfl) (execConfigure_next.2
    ⟨rfl, .inr (.inr ⟨fade_period_ne_zero, rfl, rfl⟩)⟩)⟩, ⟨⟨rfl, rfl⟩, hs⟩, ⟨_, h3, rfl⟩, ⟨_, h4, rfl⟩⟩

theorem witness_FadeSequencerRunsForever : BlockInv State.reset ∧ FadeInv State.reset ∧
    State.reset.live = true ∧ State.reset.schedule = [] :=
  ⟨by decide, ⟨rfl, rfl⟩, rfl, rfl⟩

end Sys2Proof.Tests
end

/-! SUPPORT. The obligations on `CONFIGURED` and on the outputs (spec R34, R45 to R47), each from a
lemma that says what the registers or the outputs concerned can do. -/

namespace Sys2Proof.Proofs

open Sys2Proof.Machine Sys2Proof.Safety Sys2Proof.Laws

/-! ### `CONFIGURED` -/

/-- `CONFIGURED` and `PERIOD` under a move: only a first, successful `CONFIGURE` writes them (spec
R33, R34). -/
theorem effect_configured_period {s t : State} {m : Move} (h : Effect s m t) :
    (t.configured = s.configured ∧ t.period = s.period) ∨
      ∃ p, p ≠ 0#16 ∧ m = .instr (.configure p) ∧ s.configured = false ∧
        t = hostDone (startCounter p s) := by
  cases h
  case configure p hp hc => exact .inr ⟨p, hp, rfl, hc, rfl⟩
  case tick => exact .inl (by simp [tick_frame])
  case latch => exact .inl (by simp [latch_frame])
  case servicePb => exact .inl (by simp [assertEdge_eq])
  case serviceCm => exact .inl (by simp [deassertEdge_eq])
  all_goals exact .inl ⟨rfl, rfl⟩

/-- A block that is not configured takes no `TICK` (spec R34, R103). -/
theorem exec_tick_ne_next_of_not_configured {s : State} (hc : s.configured = false) (t : State) :
    exec .tick s ≠ .next t := by
  intro h
  obtain ⟨_, he, _⟩ := execTick_next.1 h
  simp [tickEnabled, hc] at he

/-- A first `CONFIGURE` with a period that is not 0 starts the counter (spec R120). -/
theorem exec_configure_of_not_configured {s : State} {p : Val} (hl : s.live = true)
    (hc : s.configured = false) (hp : p ≠ 0#16) :
    exec (.configure p) s = .next (hostDone (startCounter p s)) :=
  execConfigure_next.2 ⟨hl, .inr (.inr ⟨hp, hc, rfl⟩)⟩

/-- `WRITE_CTRL` with `CEN = 1` faults on a block that is not configured (spec R123). -/
theorem exec_writeCtrl_of_not_configured {s : State} {m : BitVec 4} (hl : s.live = true)
    (hc : s.configured = false) (hm : m.getLsbD 0 = true) :
    exec (.writeCtrl m) s = .next (raiseFault .notConfigured (encode (.writeCtrl m)) s) :=
  execWriteCtrl_next.2 ⟨hl, .inl ⟨hm, hc, rfl⟩⟩

/-- Settles O28: what a move can do to `CONFIGURED`, and the two meanings it gates. -/
theorem configuredIsSetOnceAndGates : Obligations.ConfiguredIsSetOnceAndGates := by
  refine ⟨rfl, ?stays, ?setBy, ?sets, ?gates⟩
  case stays =>
    intro s t m h hc
    exact (effect_configured (effect_of_moves h).2 hc).1
  case setBy =>
    intro s t m h hs ht
    obtain ⟨hkept, -⟩ | ⟨p, hp, hm, -, -⟩ := effect_configured_period (effect_of_moves h).2
    · simp [hkept, hs] at ht
    · exact ⟨p, hp, hm⟩
  case sets =>
    intro s p hl hc hp
    exact ⟨_, exec_configure_of_not_configured hl hc hp, rfl⟩
  case gates =>
    intro s hl hc
    refine ⟨exec_tick_ne_next_of_not_configured hc, fun m hm => ?_⟩
    exact ⟨_, exec_writeCtrl_of_not_configured hl hc hm, rfl, rfl⟩

/-! ### Outputs -/

/-- The comparator compares `CNT` with the active value as numbers (spec R45). -/
theorem out_eq_true_iff {i : Chan} {s : State} :
    out i s = true ↔ s.cnt.toNat < (s.act.get i).toNat := by
  simp [out, BitVec.lt_def]

theorem swout_eq_true_iff {s : State} : swout s = true ↔ s.estate = .asserted := by simp [swout]

/-- The software channel's level is its output inverted, since `POL[2] = 1` (spec R13, R47). -/
theorem level_sw (s : State) : level .sw s = !swout s := by simp [level, Config.pol]

/-- Settles O41: the comparator as an order on numbers, and the level of each channel. -/
theorem outputsAndLevels : Obligations.OutputsAndLevels := fun s =>
  ⟨out_eq_true_iff (i := .hw0), out_eq_true_iff (i := .hw1), swout_eq_true_iff, rfl, rfl, level_sw s⟩

end Sys2Proof.Proofs

/-! SUPPORT. The obligation on the side effects and the idempotency of the host operations (spec R76).
Each operation gets the lemma that says what it answers where it succeeds; a first operation that a
second one follows did succeed, because a recorded fault leaves no step to take. -/

namespace Sys2Proof.Proofs

open Sys2Proof.Machine Sys2Proof.Laws

/-! ### Where a host operation succeeds -/

@[simp] theorem live_raiseFault (c : FaultCode) (w : Word) (s : State) :
    (raiseFault c w s).live = false := rfl

/-- `SET_DUTY` of a unit that exists stores its value (spec R200). -/
theorem exec_setDuty_chOf {s : State} (i : Chan) (v : Val) (hl : s.live = true) :
    exec (.setDuty (chOf i) v) s = .next (hostDone { s with ccr := s.ccr.set i v }) :=
  execSetDuty_next.2 ⟨hl, .inl ⟨i, rfl, rfl⟩⟩

/-- A `SET_DUTY` that leaves a live state named a unit that exists (spec R200, R231). -/
theorem exec_setDuty_live {s t : State} {ch : BitVec 2} {v : Val}
    (h : exec (.setDuty ch v) s = .next t) (ht : t.live = true) :
    ∃ i, ch = chOf i ∧ t = hostDone { s with ccr := s.ccr.set i v } := by
  obtain ⟨-, stored | ⟨-, rfl⟩⟩ := execSetDuty_next.1 h
  · exact stored
  · simp at ht

/-- `WRITE_CTRL` writes `CTRL` unless it would start a counter that is not configured (spec R123). -/
theorem exec_writeCtrl_of_allowed {s : State} {m : BitVec 4} (hl : s.live = true)
    (hm : m.getLsbD 0 = true → s.configured = true) :
    exec (.writeCtrl m) s = .next (hostDone { s with ctrl := m }) :=
  execWriteCtrl_next.2 ⟨hl, .inr ⟨hm, rfl⟩⟩

/-- A `WRITE_CTRL` that leaves a live state was allowed and wrote `CTRL` (spec R123, R231). -/
theorem exec_writeCtrl_live {s t : State} {m : BitVec 4}
    (h : exec (.writeCtrl m) s = .next t) (ht : t.live = true) :
    (m.getLsbD 0 = true → s.configured = true) ∧ t = hostDone { s with ctrl := m } := by
  obtain ⟨-, ⟨-, -, rfl⟩ | written⟩ := execWriteCtrl_next.1 h
  · simp at ht
  · exact written

/-- A `CONFIGURE` with a period that is not 0 is refused on a configured block (spec R121). -/
theorem exec_configure_of_configured {s : State} {p : Val} (hl : s.live = true)
    (hc : s.configured = true) (hp : p ≠ 0#16) :
    exec (.configure p) s = .next (refuse .reconfigure (encode (.configure p)) s) :=
  execConfigure_next.2 ⟨hl, .inr (.inl ⟨hp, hc, rfl⟩)⟩

/-! ### Done twice -/

/-- A register written twice holds the second value. -/
@[simp] theorem set_set (b : Bank) (i : Chan) (v w : Val) : (b.set i v).set i w = b.set i w := by
  cases i <;> rfl

/-- `SET_DUTY` done twice leaves the block as done once (spec R76). -/
theorem setDuty_twice {s t u : State} {ch : BitVec 2} {v : Val}
    (h₁ : exec (.setDuty ch v) s = .next t) (h₂ : exec (.setDuty ch v) t = .next u) :
    u = { t with pc := u.pc } := by
  have ht : t.live = true := (effect_of_exec h₂).1
  obtain ⟨i, rfl, rfl⟩ := exec_setDuty_live h₁ ht
  obtain rfl := next_eq.1 ((exec_setDuty_chOf i v ht).symm.trans h₂)
  simp [hostDone]

/-- `WRITE_CTRL` done twice leaves the block as done once (spec R76). -/
theorem writeCtrl_twice {s t u : State} {m : BitVec 4}
    (h₁ : exec (.writeCtrl m) s = .next t) (h₂ : exec (.writeCtrl m) t = .next u) :
    u = { t with pc := u.pc } := by
  have ht : t.live = true := (effect_of_exec h₂).1
  obtain ⟨hm, rfl⟩ := exec_writeCtrl_live h₁ ht
  obtain rfl := next_eq.1 ((exec_writeCtrl_of_allowed ht hm).symm.trans h₂)
  rfl

/-- Settles O33: `READ_CNT` writes the read-data path alone, `SET_DUTY` and `WRITE_CTRL` done twice
are as once, and a second `CONFIGURE` meets `CONFIGURED = 1`. -/
theorem idempotentHostOperations : Obligations.IdempotentHostOperations := by
  refine ⟨?readCnt, ?setDuty, ?writeCtrl, ?configure⟩
  case readCnt =>
    intro s t h
    obtain ⟨-, rfl⟩ := execReadCnt_next.1 h
    rfl
  case setDuty => exact fun _ _ _ _ _ _ => setDuty_twice
  case writeCtrl => exact fun _ _ _ _ => writeCtrl_twice
  case configure =>
    intro s t p q hl hc hp hq h
    obtain rfl := next_eq.1 ((exec_configure_of_not_configured hl hc hp).symm.trans h)
    exact exec_configure_of_configured hl rfl hq

end Sys2Proof.Proofs

/-! SUPPORT. The obligations on the decoder of host words and on the enabling conditions (spec R96, R97,
R103). A word's fields are read as numbers once; what `decode_host` accepts is then one equivalence over
those numbers, and a word it does not accept is the host's `Fault(ILLEGAL_OP)`. -/

namespace Sys2Proof.Proofs

open Sys2Proof.Machine Sys2Proof.Safety Sys2Proof.Laws

/-! ### The fields of a word as numbers (spec R90) -/

theorem toNat_opField (w : Word) : (opField w).toNat = w.toNat / 2 ^ 28 := by
  rw [opField, BitVec.extractLsb'_toNat, Nat.shiftRight_eq_div_pow]
  omega

theorem toNat_chField (w : Word) : (chField w).toNat = w.toNat / 2 ^ 26 % 4 := by
  simp [chField, Nat.shiftRight_eq_div_pow]

theorem toNat_rsvField (w : Word) : (rsvField w).toNat = w.toNat / 2 ^ 16 % 1024 := by
  simp [rsvField, Nat.shiftRight_eq_div_pow]

theorem toNat_immField (w : Word) : (immField w).toNat = w.toNat % 65536 := by
  simp [immField]

theorem toNat_immHigh (w : Word) : (immHigh w).toNat = w.toNat / 2 ^ 4 % 4096 := by
  simp [immHigh, Nat.shiftRight_eq_div_pow]

theorem toNat_immCtrl (w : Word) : (immCtrl w).toNat = w.toNat % 16 := by
  simp [immCtrl]

/-! ### What `decode_host` accepts (spec R96, R97) -/

/-- The case table of spec R96, over the fields of the word. -/
theorem decodeHost_ok_iff {w : Word} {i : Instr} : decodeHost w = .ok i ↔ rsvField w = 0#10 ∧
    ((opField w = 0x1#4 ∧ chField w = 0#2 ∧ i = .configure (immField w)) ∨
      (opField w = 0x2#4 ∧ i = .setDuty (chField w) (immField w)) ∨
      (opField w = 0x3#4 ∧ chField w = 0#2 ∧ immHigh w = 0#12 ∧ i = .writeCtrl (immCtrl w)) ∨
      (opField w = 0x4#4 ∧ chField w = 0#2 ∧ immField w = 0#16 ∧ i = .readCnt)) := by
  refine ⟨decodeHost_ok, ?_⟩
  rintro ⟨hrsv, ⟨hop, hch, rfl⟩ | ⟨hop, rfl⟩ | ⟨hop, hch, himm, rfl⟩ | ⟨hop, hch, himm, rfl⟩⟩
  · simp [decodeHost, hrsv, hop, hch]
  · simp [decodeHost, hrsv, hop]
  · simp [decodeHost, hrsv, hop, hch, himm]
  · simp [decodeHost, hrsv, hop, hch, himm]

/-- The case table of spec R96, the tests of the fields being tests of numbers. -/
theorem decodeHost_ok_iff_toNat {w : Word} {i : Instr} : decodeHost w = .ok i ↔
    w.toNat / 2 ^ 16 % 1024 = 0 ∧
    ((w.toNat / 2 ^ 28 = 1 ∧ w.toNat / 2 ^ 26 % 4 = 0 ∧ i = .configure (immField w)) ∨
      (w.toNat / 2 ^ 28 = 2 ∧ i = .setDuty (chField w) (immField w)) ∨
      (w.toNat / 2 ^ 28 = 3 ∧ w.toNat / 2 ^ 26 % 4 = 0 ∧ w.toNat / 2 ^ 4 % 4096 = 0 ∧
        i = .writeCtrl (immCtrl w)) ∨
      (w.toNat / 2 ^ 28 = 4 ∧ w.toNat / 2 ^ 26 % 4 = 0 ∧ w.toNat % 65536 = 0 ∧ i = .readCnt)) := by
  rw [decodeHost_ok_iff]
  simp only [← BitVec.toNat_inj, toNat_opField, toNat_chField, toNat_rsvField, toNat_immField,
    toNat_immHigh, BitVec.toNat_ofNat, Nat.reducePow, Nat.reduceMod, Nat.zero_mod]

/-- Which words are host operations (spec R97). -/
theorem exists_decodeHost_ok_iff {w : Word} : (∃ i, decodeHost w = .ok i) ↔
    w.toNat / 2 ^ 16 % 1024 = 0 ∧
    ((w.toNat / 2 ^ 28 = 1 ∧ w.toNat / 2 ^ 26 % 4 = 0) ∨ w.toNat / 2 ^ 28 = 2 ∨
      (w.toNat / 2 ^ 28 = 3 ∧ w.toNat / 2 ^ 26 % 4 = 0 ∧ w.toNat / 2 ^ 4 % 4096 = 0) ∨
      (w.toNat / 2 ^ 28 = 4 ∧ w.toNat / 2 ^ 26 % 4 = 0 ∧ w.toNat % 65536 = 0)) := by
  simp only [decodeHost_ok_iff_toNat, exists_and_left, exists_or, exists_eq, and_true]

/-- What `decode_host` accepts is executed by the host (spec R91). -/
theorem byHost_of_decodeHost {w : Word} {i : Instr} (h : decodeHost w = .ok i) :
    byHost i = true := by
  obtain ⟨-, ⟨-, -, rfl⟩ | ⟨-, rfl⟩ | ⟨-, -, -, rfl⟩ | ⟨-, -, -, rfl⟩⟩ := decodeHost_ok h <;> rfl

/-! ### An illegal word at the host's turn (spec R96, R231) -/

theorem nextTurn_of_schedule {s : State} {tn : Turn} {rest : List Turn}
    (h : s.schedule = tn :: rest) : nextTurn s = some (tn, { s with schedule := rest }) := by
  simp [nextTurn, h]

theorem fetchTurn_host_of_rejected {s : State} {w : Word} (hw : ∀ i, decodeHost w ≠ .ok i)
    (hpc : s.pc.stmt? = some (.toBlock w)) : fetchTurn .host s = .illegal w s := by
  cases hd : decodeHost w with
  | ok i => exact absurd hd (hw i)
  | error r => simp [fetchTurn, hpc, hd]

/-- A word that `decode_host` rejects is executed as `Fault(ILLEGAL_OP)`. -/
theorem illegalWord_of_rejected {w : Word} (hw : ∀ i, decodeHost w ≠ .ok i) : IllegalWord w :=
  ⟨hw, fun _ _ hl hs hpc =>
    step_illegal hl (nextTurn_of_schedule hs) (fetchTurn_host_of_rejected hw hpc)⟩

/-- Settles O4: each field of the word is the number of the case table, and a rejected word faults at
the host's turn. -/
theorem hostWordDecoding : Obligations.HostWordDecoding := by
  refine ⟨?table, fun _ => illegalWord_of_rejected⟩
  case table =>
    intro w op ch rsv imm hop hch hrsv himm hw i
    have hop' : w.toNat / 2 ^ 28 = op := by omega
    have hch' : w.toNat / 2 ^ 26 % 4 = ch := by omega
    have hrsv' : w.toNat / 2 ^ 16 % 1024 = rsv := by omega
    have himm' : w.toNat % 65536 = imm := by omega
    have hhigh : w.toNat / 2 ^ 4 % 4096 = 0 ↔ imm < 16 := by omega
    have hchField : chField w = BitVec.ofNat 2 ch :=
      BitVec.eq_of_toNat_eq (by rw [toNat_chField, BitVec.toNat_ofNat]; omega)
    have himmField : immField w = BitVec.ofNat 16 imm :=
      BitVec.eq_of_toNat_eq (by rw [toNat_immField, BitVec.toNat_ofNat]; omega)
    have himmCtrl : immCtrl w = BitVec.ofNat 4 imm :=
      BitVec.eq_of_toNat_eq (by rw [toNat_immCtrl, BitVec.toNat_ofNat]; omega)
    rw [decodeHost_ok_iff_toNat, hop', hch', hrsv', himm', hhigh, hchField, himmField, himmCtrl]

/-- Settles O5: the illegal words are those outside the accepted fields, and the all-zero word is one
of them, its `OP` being 0. -/
theorem illegalHostWords : Obligations.IllegalHostWords := by
  refine ⟨fun w => ?fields, illegalWord_of_rejected fun i h => ?zero⟩
  case fields =>
    simp only [List.mem_cons, List.not_mem_nil, or_false]
    split
    next hillegal =>
      refine illegalWord_of_rejected fun i h => ?_
      have := exists_decodeHost_ok_iff.1 ⟨i, h⟩
      omega
    next hlegal =>
      obtain ⟨i, h⟩ := (exists_decodeHost_ok_iff (w := w)).2 (by omega)
      exact ⟨i, h, byHost_of_decodeHost h⟩
  case zero =>
    have := exists_decodeHost_ok_iff.1 ⟨i, h⟩
    simp at this

/-! ### When a step is answered (spec R103) -/

/-- Each host operation has an answer in a live state, be it the record of a fault or a refusal. -/
theorem exists_exec_of_byHost {s : State} {i : Instr} (hi : byHost i = true) (hl : s.live = true) :
    ∃ t, exec i s = .next t := by
  cases i with
  | configure p =>
    by_cases hp : p = 0#16
    · exact ⟨_, execConfigure_next.2 ⟨hl, .inl ⟨hp, rfl⟩⟩⟩
    · cases hc : s.configured with
      | true => exact ⟨_, exec_configure_of_configured hl hc hp⟩
      | false => exact ⟨_, exec_configure_of_not_configured hl hc hp⟩
  | setDuty ch v =>
    cases hch : chan? ch with
    | none => exact ⟨_, execSetDuty_next.2 ⟨hl, .inr ⟨(chan_none ch).1 hch, rfl⟩⟩⟩
    | some i => exact ⟨_, execSetDuty_next.2 ⟨hl, .inl ⟨i, chan_some.1 hch, rfl⟩⟩⟩
  | writeCtrl m =>
    by_cases hm : m.getLsbD 0 = true → s.configured = true
    · exact ⟨_, exec_writeCtrl_of_allowed hl hm⟩
    · simp only [Classical.not_imp, Bool.not_eq_true] at hm
      exact ⟨_, exec_writeCtrl_of_not_configured hl hm.2 hm.1⟩
  | readCnt => exact ⟨_, execReadCnt_next.2 ⟨hl, rfl⟩⟩
  | delay n => exact ⟨_, (execDelay_next (n := n)).2 ⟨hl, rfl⟩⟩
  | tick | servicePb | serviceCm | latch ch => cases hi

theorem exists_exec_byHost_iff {s : State} {i : Instr} (hi : byHost i = true) :
    (∃ t, exec i s = .next t) ↔ s.live = true :=
  ⟨fun ⟨_, h⟩ => (effect_of_exec h).1, exists_exec_of_byHost hi⟩

theorem exists_exec_tick_iff {s : State} :
    (∃ t, exec .tick s = .next t) ↔ s.live = true ∧ tickEnabled s = true := by
  simp [exec, execTick_next]

theorem exists_exec_servicePb_iff {s : State} :
    (∃ t, exec .servicePb s = .next t) ↔ s.live = true ∧ pbEnabled s = true := by
  simp [exec, execServicePb, servicePbWith_next]

theorem exists_exec_serviceCm_iff {s : State} :
    (∃ t, exec .serviceCm s = .next t) ↔ s.live = true ∧ cmEnabled s = true := by
  simp [exec, execServiceCm, serviceCmWith_next]

theorem exists_exec_latch_iff {s : State} {ch : BitVec 2} :
    (∃ t, exec (.latch ch) s = .next t) ↔
      s.live = true ∧ ∃ i, ch = chOf i ∧ latchEnabled i s = true := by
  constructor
  · rintro ⟨t, h⟩
    obtain ⟨hl, i, hch, he, -⟩ := latchWith_next.1 h
    exact ⟨hl, i, hch, he⟩
  · rintro ⟨hl, i, hch, he⟩
    exact ⟨_, latchWith_next.2 ⟨hl, i, hch, he, rfl⟩⟩

/-- The condition of `LATCH`, unit by unit (spec R103, R151). -/
theorem exists_latchEnabled_iff {s : State} {ch : BitVec 2} :
    (∃ i, ch = chOf i ∧ latchEnabled i s = true) ↔
      (ch = 0#2 ∧ s.act.u0 ≠ s.ccr.u0) ∨ (ch = 1#2 ∧ s.act.u1 ≠ s.ccr.u1) ∨
        (ch = 2#2 ∧ s.act.u2 ≠ s.ccr.u2) := by
  simp only [latchEnabled, decide_eq_true_eq]
  constructor
  · rintro ⟨_ | _ | _, h⟩
    · exact .inl h
    · exact .inr (.inl h)
    · exact .inr (.inr h)
  · rintro (h | h | h)
    · exact ⟨.hw0, h⟩
    · exact ⟨.hw1, h⟩
    · exact ⟨.sw, h⟩

theorem hostEnabled_iff {s : State} : hostEnabled s = true ↔ s.pc ≠ .other [] .ends := by
  rw [hostEnabled, Option.isSome_iff_ne_none, ne_eq, stmt_eq_none]

/-- Settles O10: each step is answered in a live state under its own condition, read off the registers
that the condition names. -/
theorem enablingConditions : Obligations.EnablingConditions := by
  refine fun s => ⟨?tick, fun ch => ?latch, ?servicePb, ?serviceCm, fun i hi => ?host,
    hostEnabled_iff⟩
  case tick => rw [exists_exec_tick_iff]; simp [live_iff, tickEnabled, State.cen, and_assoc]
  case latch => rw [exists_exec_latch_iff, exists_latchEnabled_iff, live_iff, and_assoc]
  case servicePb =>
    rw [exists_exec_servicePb_iff]
    simp [live_iff, pbEnabled, State.gie, State.pbie, State.pbf, and_assoc]
  case serviceCm =>
    rw [exists_exec_serviceCm_iff]
    simp [live_iff, cmEnabled, State.gie, State.cmie, State.cmf, and_assoc]
  case host => rw [exists_exec_byHost_iff hi, live_iff]

end Sys2Proof.Proofs

/-! SUPPORT. The obligations on the Counter/Period unit (spec R120, R121, R123, R124, R126). A word is read
by the case table of spec R96 over numbers, the word of a record is written out as a number, and `TICK` is
taken apart into a wrap and a count up. -/

namespace Sys2Proof.Proofs

open Sys2Proof.Machine Sys2Proof.Safety Sys2Proof.Laws

/-! ### Words and their fields as numbers (spec R90 to R97) -/

theorem immField_eq_ofNat (w : Word) : immField w = BitVec.ofNat 16 w.toNat :=
  BitVec.eq_of_toNat_eq (toNat_immField w)

theorem immCtrl_eq_ofNat (w : Word) : immCtrl w = BitVec.ofNat 4 w.toNat :=
  BitVec.eq_of_toNat_eq (toNat_immCtrl w)

/-- The word of an instruction, from the numbers of its fields. -/
theorem encode_eq_ofNat (i : Instr) : encode i = BitVec.ofNat 32
    ((opcode i).toNat * 2 ^ 28 + (chOperand i).toNat * 2 ^ 26 + (immOperand i).toNat) := by
  have hop := toNat_opField (encode i)
  have hch := toNat_chField (encode i)
  have hrsv := toNat_rsvField (encode i)
  have himm := toNat_immField (encode i)
  rw [opField_encode] at hop
  rw [chField_encode] at hch
  rw [rsvField_encode, BitVec.toNat_ofNat, Nat.zero_mod] at hrsv
  rw [immField_encode] at himm
  apply BitVec.eq_of_toNat_eq
  rw [BitVec.toNat_ofNat]
  omega

theorem encode_configure (p : Val) :
    encode (.configure p) = BitVec.ofNat 32 (0x10000000 + p.toNat) := by
  rw [encode_eq_ofNat]
  simp [opcode, chOperand, immOperand]

/-- `IMM[15:4] = 0` leaves the operand's number (spec R93). -/
theorem toNat_ctrl_operand : ∀ m : BitVec 4, (0#12 ++ m : BitVec 16).toNat = m.toNat := by decide

theorem encode_writeCtrl (m : BitVec 4) :
    encode (.writeCtrl m) = BitVec.ofNat 32 (0x30000000 + m.toNat) := by
  rw [encode_eq_ofNat]
  simp [opcode, chOperand, immOperand, toNat_ctrl_operand]

theorem illegalWord_iff {w : Word} : IllegalWord w ↔ ¬ ∃ i, decodeHost w = .ok i :=
  ⟨fun ⟨hw, _⟩ ⟨i, h⟩ => hw i h, fun h => illegalWord_of_rejected (not_exists.1 h)⟩

/-! ### `TICK` (spec R103, R126) -/

theorem exec_tick_of_enabled {s : State} (hl : s.live = true) (hc : s.configured = true)
    (hcen : s.cen = true) : exec .tick s = .next (compareMatch (count s)) :=
  execTick_next.2 ⟨hl, by simp [tickEnabled, hc, hcen], rfl⟩

theorem exec_tick_ne_next {s : State} (h : ¬ (s.live = true ∧ s.configured = true ∧ s.cen = true))
    (t : State) : exec .tick s ≠ .next t := by
  intro ht
  obtain ⟨hl, he, -⟩ := execTick_next.1 ht
  rw [tickEnabled, Bool.and_eq_true] at he
  exact h ⟨hl, he⟩

theorem tick_eq (s : State) : compareMatch (count s) =
    { s with cnt := (compareMatch (count s)).cnt, act := (compareMatch (count s)).act,
             status := (compareMatch (count s)).status } := by
  unfold compareMatch count
  split <;> split <;> rfl

theorem tick_wrap {s : State} (h : s.cnt = s.period - 1#16) : (compareMatch (count s)).cnt = 0#16 ∧
    (compareMatch (count s)).act = s.ccr ∧ (compareMatch (count s)).pbf = true := by
  simp [tick_cnt, tick_act, tick_pbf, h]

theorem tick_up {s : State} (h : s.cnt ≠ s.period - 1#16) :
    (compareMatch (count s)).cnt = s.cnt + 1#16 ∧
    (compareMatch (count s)).act = s.act ∧ (compareMatch (count s)).pbf = s.pbf := by
  simp [tick_cnt, tick_act, tick_pbf, h]

/-- A `TICK` keeps the counter below the period (spec R54). -/
theorem tick_cnt_lt {s : State} (h : s.cnt < s.period) :
    (compareMatch (count s)).cnt < s.period := by
  rw [tick_cnt]
  split <;> bv_omega

/-- A compare value at or above the period is never met (spec R126). -/
theorem tick_cmf_of_period_le {s : State} (h : s.cnt < s.period)
    (hact : s.period ≤ (compareMatch (count s)).act.u2) :
    (compareMatch (count s)).cmf = s.cmf := by
  have hlt := tick_cnt_lt h
  have hne : (compareMatch (count s)).cnt ≠ (compareMatch (count s)).act.u2 := by bv_omega
  rw [tick_cmf, decide_eq_false hne, Bool.or_false]

/-- Settles O18: the counter's two branches, and the match read on the values they leave. -/
theorem tickCountsAndRaisesEvents : Obligations.TickCountsAndRaisesEvents := by
  refine ⟨rfl, fun s => ⟨fun hl hc hcen => ?_, exec_tick_ne_next⟩⟩
  refine ⟨_, exec_tick_of_enabled hl hc hcen, tick_eq s, tick_wrap, tick_up, tick_cmf s, ?_⟩
  rintro ⟨hinv, -⟩
  obtain ⟨-, hlt⟩ := hinv hc
  exact tick_cmf_of_period_le hlt

/-! ### `CONFIGURE` (spec R120, R121) -/

/-- With `P = 1` every `TICK` is a wrap, the first one included. -/
theorem tick_after_configure_one {s t u : State} (hc : s.configured = false)
    (ht : exec (.configure 1#16) s = .next t) (hu : exec .tick t = .next u) :
    u.cnt = 0#16 ∧ u.pbf = true := by
  have hl : s.live = true := (effect_of_exec ht).1
  obtain rfl := next_eq.1 ((exec_configure_of_not_configured hl hc (by decide)).symm.trans ht)
  obtain ⟨-, -, rfl⟩ := execTick_next.1 hu
  obtain ⟨hcnt, -, hpbf⟩ := tick_wrap (s := hostDone (startCounter 1#16 s)) (by simp)
  exact ⟨hcnt, hpbf⟩

/-- Settles O13: the word's fields as numbers, the three answers in the order of the checks, and the
wrap that follows `CONFIGURE 1`. -/
theorem configureStartsTheCounter : Obligations.ConfigureStartsTheCounter := by
  refine ⟨fun w hop => ⟨fun hz => ?legal, fun hz => ?illegal⟩,
    fun p s hl => ⟨?badPeriod, fun hp hc => ?reconfigure, fun hp hc => ?starts⟩,
    fun _ _ _ => tick_after_configure_one⟩
  case legal =>
    rw [← immField_eq_ofNat]
    exact decodeHost_ok_iff_toNat.2 ⟨by omega, .inl ⟨hop, by omega, rfl⟩⟩
  case illegal =>
    rw [illegalWord_iff, exists_decodeHost_ok_iff]
    omega
  case badPeriod =>
    rintro rfl
    exact execConfigure_next.2 ⟨hl, .inl ⟨rfl, rfl⟩⟩
  case reconfigure =>
    rw [← encode_configure]
    exact exec_configure_of_configured hl hc hp
  case starts => exact exec_configure_of_not_configured hl hc hp

/-! ### `WRITE_CTRL` (spec R123) -/

/-- Settles O14: the word's fields as numbers, the fault of `CEN = 1` before `CONFIGURE`, and the write
of the whole of `CTRL`, whose bit 0 enables `TICK`. -/
theorem writeCtrlWritesTheEnables : Obligations.WriteCtrlWritesTheEnables := by
  refine ⟨fun w hop => ⟨fun hz => ?legal, fun hz => ?illegal⟩,
    fun m s hl => ⟨fun hm hc => ?notConfigured, fun hm => ?writes⟩⟩
  case legal =>
    rw [← immCtrl_eq_ofNat]
    exact decodeHost_ok_iff_toNat.2
      ⟨by omega, .inr (.inr (.inl ⟨hop, by omega, by omega, rfl⟩))⟩
  case illegal =>
    rw [illegalWord_iff, exists_decodeHost_ok_iff]
    omega
  case notConfigured =>
    rw [← encode_writeCtrl]
    exact exec_writeCtrl_of_not_configured hl hc hm
  case writes =>
    refine ⟨_, exec_writeCtrl_of_allowed hl hm, rfl, rfl, rfl, rfl, rfl, fun hcen => ?_⟩
    refine exec_tick_ne_next ?_
    rintro ⟨-, -, hcen'⟩
    exact Bool.false_ne_true (hcen.symm.trans hcen')

/-! ### `READ_CNT` (spec R124) -/

theorem toNat_zext32 (v : Val) : (zext32 v).toNat = v.toNat :=
  BitVec.toNat_setWidth_of_le (by decide)

/-- Settles O15: the one word whose other fields are 0, and the counter as the value returned. -/
theorem readCntReturnsTheCounter : Obligations.ReadCntReturnsTheCounter := by
  refine ⟨fun w hop => ⟨?legal, fun hw => ?illegal⟩, fun s hl => ?returns⟩
  case legal =>
    rintro rfl
    rfl
  case illegal =>
    have hne : w.toNat ≠ 0x40000000 := fun h => hw (BitVec.eq_of_toNat_eq h)
    rw [illegalWord_iff, exists_decodeHost_ok_iff]
    omega
  case returns =>
    refine ⟨_, execReadCnt_next.2 ⟨hl, rfl⟩, rfl, toNat_zext32 s.cnt, fun hinv hc => ?_⟩
    obtain ⟨-, hcnt, -⟩ := hinv.2 hc
    rw [hostDone_rd, returnData_rd, hcnt]
    rfl

end Sys2Proof.Proofs

/-! SUPPORT. The obligations on the hardware PWM channels' `LATCH` and on their independence (spec R151,
R155): what a taken `LATCH` leaves, and for each step that reads or writes a compare unit the lemma that
says which registers its answer depends on. -/

namespace Sys2Proof.Proofs

open Sys2Proof.Machine Sys2Proof.Safety Sys2Proof.Laws

/-! ### `LATCH` (spec R151) -/

/-- The word of spec R91's `LATCH` row, unit by unit. -/
theorem decodeLabel_latch : ∀ ch : BitVec 2, ch ≠ 3#2 →
    decodeLabel (BitVec.ofNat 32 (0xB0000000 + ch.toNat * 2 ^ 26)) = .ok (.latch ch) := by
  decide

/-- `LATCH` of a unit is answered exactly where the unit's two values differ (spec R103). -/
theorem latchWith_chOf_next {s t : State} {i : Chan} {b : Bool} :
    latchWith b (chOf i) s = .next t ↔
      s.live = true ∧ s.act.get i ≠ s.ccr.get i ∧ t = latchUnit b i s := by
  simp [latchWith, guarded_next, latchEnabled]

/-- A `LATCH` of a unit whose two values differ is a move, whichever bit is drawn. -/
theorem moves_latch_of_ne {s : State} {i : Chan} (b : Bool) (hl : s.live = true)
    (hne : s.act.get i ≠ s.ccr.get i) :
    Moves s (.instr (.latch (chOf i))) (latchUnit b i s) :=
  ⟨nofun, b, latchWith_chOf_next.2 ⟨hl, hne, rfl⟩⟩

/-- `LATCH` writes `ACT`, `STATUS` and the count of draws only. -/
theorem latch_eq (b : Bool) (i : Chan) (s : State) : latchUnit b i s =
    { s with act := (latchUnit b i s).act, status := (latchUnit b i s).status,
             draws := (latchUnit b i s).draws } := by
  unfold latchUnit freshMatch
  split
  · cases b <;> rfl
  · rfl

/-- What a `LATCH` leaves: its own unit loaded, the others kept, and `CMF` perhaps set by the drawn bit. -/
theorem latch_loads (b : Bool) (i : Chan) (s : State) :
    latchUnit b i s = { s with act := (latchUnit b i s).act, status := (latchUnit b i s).status,
                               draws := (latchUnit b i s).draws } ∧
    (latchUnit b i s).act.get i = s.ccr.get i ∧
    (∀ j, j ≠ i → (latchUnit b i s).act.get j = s.act.get j) ∧ (latchUnit b i s).pbf = s.pbf ∧
    (latchUnit b i s).cmf =
      (s.cmf || (decide (i = .sw ∧ s.configured = true ∧ s.ccr.u2 = s.cnt) && b)) := by
  obtain ⟨hact, -⟩ := latch_frame b i s
  refine ⟨latch_eq b i s, ?_, fun j hj => ?_, latch_pbf b i s, ?_⟩
  · rw [hact, get_set_same]
  · rw [hact, get_set_other _ _ _ _ hj]
  · rw [latch_cmf, Bool.and_comm b]

/-- Settles O19: the answered `LATCH` with the bit of the state's next draw, each bit as a move, and no
answer where the values are equal. -/
theorem latchLoadsOneActiveValue : Obligations.LatchLoadsOneActiveValue := by
  refine ⟨decodeLabel_latch, fun i s => ⟨fun hl hne => ⟨?answered, fun b => ?either⟩, ?disabled⟩⟩
  case answered =>
    exact ⟨_, drawnBit s, latchWith_chOf_next.2 ⟨hl, hne, rfl⟩, latch_loads _ i s⟩
  case either => exact ⟨_, moves_latch_of_ne b hl hne, latch_loads b i s⟩
  case disabled =>
    intro hdis t ht
    obtain ⟨hl, hne, -⟩ := latchWith_chOf_next.1 ht
    exact hdis ⟨hl, hne⟩

/-! ### What the services and the hardware channels read (spec R155) -/

/-- `OUT[i]` reads `CNT` and `ACT[i]` (spec R45). -/
theorem out_congr {s t : State} {i : Chan} (hcnt : t.cnt = s.cnt) (hact : t.act.get i = s.act.get i) :
    out i t = out i s := by
  simp [out, hcnt, hact]

/-- The state with other values in the registers of units 0 and 1. -/
def withHardwareUnits (c0 c1 a0 a1 : Val) (s : State) : State :=
  { s with ccr := { s.ccr with u0 := c0, u1 := c1 }, act := { s.act with u0 := a0, u1 := a1 } }

/-- A service leaves the counter and every compare register. -/
theorem service_frame {s t : State} {b : Bool} {i : Instr} (hi : i = .servicePb ∨ i = .serviceCm)
    (h : execWith b i s = .next t) : t.cnt = s.cnt ∧ t.ccr = s.ccr ∧ t.act = s.act := by
  obtain rfl | rfl := hi
  · obtain ⟨-, -, rfl⟩ := servicePbWith_next.1 h
    simp [assertEdge_eq]
  · obtain ⟨-, -, rfl⟩ := serviceCmWith_next.1 h
    simp [deassertEdge_eq]

/-- A service does the same whatever units 0 and 1 hold: its draw is between unit 2's values (spec
R175). -/
theorem service_withHardwareUnits {s t : State} {b : Bool} {i : Instr} (c0 c1 a0 a1 : Val)
    (hi : i = .servicePb ∨ i = .serviceCm) (h : execWith b i s = .next t) :
    execWith b i (withHardwareUnits c0 c1 a0 a1 s) = .next (withHardwareUnits c0 c1 a0 a1 t) := by
  obtain rfl | rfl := hi
  · obtain ⟨hl, he, rfl⟩ := servicePbWith_next.1 h
    refine servicePbWith_next.2 ⟨hl, he, ?_⟩
    rw [assertEdge_eq, assertEdge_eq]
    rfl
  · obtain ⟨hl, he, rfl⟩ := serviceCmWith_next.1 h
    refine serviceCmWith_next.2 ⟨hl, he, ?_⟩
    rw [deassertEdge_eq, deassertEdge_eq]
    rfl

/-- `TICK` and `LATCH` count and load the same whatever `ESTATE` and the flags are. -/
theorem timer_of_estate_status {s t : State} {b : Bool} {i : Instr} (e : EState) (f : BitVec 2)
    (hi : i = .tick ∨ ∃ ch, i = .latch ch) (h : execWith b i s = .next t) :
    ∃ t', execWith b i { s with estate := e, status := f } = .next t' ∧
      t'.cnt = t.cnt ∧ t'.act = t.act := by
  obtain rfl | ⟨ch, rfl⟩ := hi
  · obtain ⟨hl, he, rfl⟩ := execTick_next.1 h
    exact ⟨_, execTick_next.2 ⟨hl, he, rfl⟩, by simp [tick_cnt], by simp [tick_act]⟩
  · obtain ⟨hl, u, rfl, he, rfl⟩ := latchWith_next.1 h
    exact ⟨_, latchWith_next.2 ⟨hl, u, rfl, he, rfl⟩, by simp [latch_frame], by simp [latch_frame]⟩

/-- `TICK` and `LATCH u` leave the same counter and the same `ACT[u]` whatever the other units hold. -/
theorem timer_of_other_units {s t : State} {b : Bool} {i : Instr} {u : Chan} {c a : Bank}
    (hi : i = .tick ∨ i = .latch (chOf u)) (hc : c.get u = s.ccr.get u) (ha : a.get u = s.act.get u)
    (h : execWith b i s = .next t) :
    ∃ t', execWith b i { s with ccr := c, act := a } = .next t' ∧
      t'.cnt = t.cnt ∧ t'.act.get u = t.act.get u := by
  obtain rfl | rfl := hi
  · obtain ⟨hl, he, rfl⟩ := execTick_next.1 h
    refine ⟨_, execTick_next.2 ⟨hl, he, rfl⟩, by simp [tick_cnt], ?_⟩
    rw [tick_act, tick_act]
    split
    · exact hc
    · exact ha
  · obtain ⟨hl, hne, rfl⟩ := latchWith_chOf_next.1 h
    refine ⟨_, latchWith_chOf_next.2 ⟨hl, ?_, rfl⟩, by simp [latch_frame], ?_⟩
    · simpa [hc, ha] using hne
    · simp [latch_frame, hc]

/-- Settles O45: the services' frame and the registers each step's answer depends on; a hardware output
follows the counter and its own active value. -/
theorem hardwareChannelsAreIndependent : Obligations.HardwareChannelsAreIndependent := by
  refine ⟨?services, fun _ _ _ _ => rfl, ?flags, ?units⟩
  case services =>
    intro s t b i hi h
    obtain ⟨hcnt, hccr, hact⟩ := service_frame hi h
    refine ⟨hccr, hact, out_congr hcnt (by rw [hact]), out_congr hcnt (by rw [hact]),
      fun c0 c1 a0 a1 => ?_⟩
    simpa only [withHardwareUnits, hccr, hact] using service_withHardwareUnits c0 c1 a0 a1 hi h
  case flags => exact fun _ _ _ _ e f => timer_of_estate_status e f
  case units =>
    intro s t b i u c a _ hi hc ha h
    obtain ⟨t', ht', hcnt, hact⟩ := timer_of_other_units hi hc ha h
    exact ⟨t', ht', hcnt, hact, out_congr hcnt hact⟩

end Sys2Proof.Proofs

/-! SUPPORT. The obligations on the software PWM channel's two service steps (spec R170, R172, R174 to
R176). What a service leaves is one state, written out over the drawn duty value; a service as a move is
then its enabling condition and one of the two duty values, and the edge state's changes and the agreement
of the two values are read off what a move can do. -/

namespace Sys2Proof.Proofs

open Sys2Proof.Machine Sys2Proof.Safety Sys2Proof.Laws

/-! ### The drawn duty value (spec R175) -/

theorem drawnDuty_eq_ite (b : Bool) (s : State) :
    drawnDuty b s = if b = true then s.ccr.u2 else s.act.u2 := by
  cases b
  · exact drawnDuty_false s
  · exact drawnDuty_true s

/-- The values that some draw gives are the written and the active one. -/
theorem exists_drawnDuty_eq_iff {s : State} {d : Val} :
    (∃ b, drawnDuty b s = d) ↔ d = s.ccr.u2 ∨ d = s.act.u2 := by
  constructor
  · rintro ⟨b, rfl⟩
    exact drawnDuty_cases b s
  · rintro (rfl | rfl)
    · exact ⟨true, drawnDuty_true s⟩
    · exact ⟨false, drawnDuty_false s⟩

/-! ### What a service leaves (spec R172, R174) -/

/-- The state a `SERVICE_PB` leaves when it compares against `d`. -/
def afterServicePb (d : Val) (s : State) : State :=
  { s with
    status := s.status &&& 0b10#2
    estate := if s.estate = .deasserted ∧ s.cnt < d then .asserted else s.estate
    draws := s.draws + 1 }

/-- The state a `SERVICE_CM` leaves when it compares against `d`. -/
def afterServiceCm (d : Val) (s : State) : State :=
  { s with
    status := s.status &&& 0b01#2
    estate := if s.estate = .asserted ∧ d ≤ s.cnt then .deasserted else s.estate
    draws := s.draws + 1 }

/-- The transition of spec R172 writes `ESTATE` only, under its own guard. -/
theorem assertEdge_eq_of_guard (d : Val) (s : State) : assertEdge d s =
    { s with estate := if s.estate = .deasserted ∧ s.cnt < d then .asserted else s.estate } := by
  unfold assertEdge
  split <;> rfl

/-- The transition of spec R174 writes `ESTATE` only, under its own guard. -/
theorem deassertEdge_eq_of_guard (d : Val) (s : State) : deassertEdge d s =
    { s with estate := if s.estate = .asserted ∧ d ≤ s.cnt then .deasserted else s.estate } := by
  unfold deassertEdge
  split <;> rfl

@[simp] theorem pbf_afterServicePb (d : Val) (s : State) : (afterServicePb d s).pbf = false :=
  pbf_clearPbf
@[simp] theorem cmf_afterServicePb (d : Val) (s : State) : (afterServicePb d s).cmf = s.cmf :=
  cmf_clearPbf
@[simp] theorem cmf_afterServiceCm (d : Val) (s : State) : (afterServiceCm d s).cmf = false :=
  cmf_clearCmf
@[simp] theorem pbf_afterServiceCm (d : Val) (s : State) : (afterServiceCm d s).pbf = s.pbf :=
  pbf_clearCmf

theorem afterServicePb_of_not_guard {d : Val} {s : State}
    (h : ¬ (s.estate = .deasserted ∧ s.cnt < d)) :
    afterServicePb d s = { s with status := s.status &&& 0b10#2, draws := s.draws + 1 } := by
  rw [afterServicePb, if_neg h]

theorem afterServiceCm_of_not_guard {d : Val} {s : State}
    (h : ¬ (s.estate = .asserted ∧ d ≤ s.cnt)) :
    afterServiceCm d s = { s with status := s.status &&& 0b01#2, draws := s.draws + 1 } := by
  rw [afterServiceCm, if_neg h]

theorem servicePbWith_next_iff {s t : State} {b : Bool} : servicePbWith b s = .next t ↔
    s.live = true ∧ pbEnabled s = true ∧ t = afterServicePb (drawnDuty b s) s := by
  rw [servicePbWith_next, assertEdge_eq_of_guard]
  rfl

theorem serviceCmWith_next_iff {s t : State} {b : Bool} : serviceCmWith b s = .next t ↔
    s.live = true ∧ cmEnabled s = true ∧ t = afterServiceCm (drawnDuty b s) s := by
  rw [serviceCmWith_next, deassertEdge_eq_of_guard]
  rfl

theorem pbEnabled_iff {s : State} :
    pbEnabled s = true ↔ s.gie = true ∧ s.pbie = true ∧ s.pbf = true := by
  simp [pbEnabled, and_assoc]

theorem cmEnabled_iff {s : State} :
    cmEnabled s = true ↔ s.gie = true ∧ s.cmie = true ∧ s.cmf = true := by
  simp [cmEnabled, and_assoc]

/-! ### A service as a move (spec R103, R175) -/

theorem moves_servicePb_iff {s t : State} : Moves s (.instr .servicePb) t ↔
    s.live = true ∧ pbEnabled s = true ∧
      ∃ d, (d = s.ccr.u2 ∨ d = s.act.u2) ∧ t = afterServicePb d s := by
  simp only [← exists_drawnDuty_eq_iff]
  constructor
  · rintro ⟨-, b, h⟩
    obtain ⟨hl, he, rfl⟩ := servicePbWith_next_iff.1 h
    exact ⟨hl, he, _, ⟨b, rfl⟩, rfl⟩
  · rintro ⟨hl, he, _, ⟨b, rfl⟩, rfl⟩
    exact ⟨nofun, b, servicePbWith_next_iff.2 ⟨hl, he, rfl⟩⟩

theorem moves_serviceCm_iff {s t : State} : Moves s (.instr .serviceCm) t ↔
    s.live = true ∧ cmEnabled s = true ∧
      ∃ d, (d = s.ccr.u2 ∨ d = s.act.u2) ∧ t = afterServiceCm d s := by
  simp only [← exists_drawnDuty_eq_iff]
  constructor
  · rintro ⟨-, b, h⟩
    obtain ⟨hl, he, rfl⟩ := serviceCmWith_next_iff.1 h
    exact ⟨hl, he, _, ⟨b, rfl⟩, rfl⟩
  · rintro ⟨hl, he, _, ⟨b, rfl⟩, rfl⟩
    exact ⟨nofun, b, serviceCmWith_next_iff.2 ⟨hl, he, rfl⟩⟩

/-- Settles O20: the answered service draws the state's next bit, either bit is a move, and both leave
the one state of spec R172. -/
theorem servicePbAssertsBelowTheDuty : Obligations.ServicePbAssertsBelowTheDuty := by
  refine ⟨rfl, fun s => ⟨fun hl hgie hpbie hpbf => ?enabled, fun hdis t ht => ?disabled⟩⟩
  case enabled =>
    have hnext (b : Bool) : servicePbWith b s = .next (afterServicePb (drawnDuty b s) s) :=
      servicePbWith_next_iff.2 ⟨hl, pbEnabled_iff.2 ⟨hgie, hpbie, hpbf⟩, rfl⟩
    simp only [← drawnDuty_eq_ite]
    exact ⟨⟨_, drawnBit s, hnext _, rfl, pbf_afterServicePb _ s, cmf_afterServicePb _ s⟩,
      fun b => ⟨_, ⟨nofun, b, hnext b⟩, rfl, pbf_afterServicePb _ s, cmf_afterServicePb _ s⟩⟩
  case disabled =>
    obtain ⟨hl, he, -⟩ := servicePbWith_next_iff.1 ht
    exact hdis ⟨hl, pbEnabled_iff.1 he⟩

/-- Settles O21: the answered service draws the state's next bit, either bit is a move, and both leave
the one state of spec R174. -/
theorem serviceCmDeassertsFromTheDuty : Obligations.ServiceCmDeassertsFromTheDuty := by
  refine ⟨rfl, fun s => ⟨fun hl hgie hcmie hcmf => ?enabled, fun hdis t ht => ?disabled⟩⟩
  case enabled =>
    have hnext (b : Bool) : serviceCmWith b s = .next (afterServiceCm (drawnDuty b s) s) :=
      serviceCmWith_next_iff.2 ⟨hl, cmEnabled_iff.2 ⟨hgie, hcmie, hcmf⟩, rfl⟩
    simp only [← drawnDuty_eq_ite]
    exact ⟨⟨_, drawnBit s, hnext _, rfl, cmf_afterServiceCm _ s, pbf_afterServiceCm _ s⟩,
      fun b => ⟨_, ⟨nofun, b, hnext b⟩, rfl, cmf_afterServiceCm _ s, pbf_afterServiceCm _ s⟩⟩
  case disabled =>
    obtain ⟨hl, he, -⟩ := serviceCmWith_next_iff.1 ht
    exact hdis ⟨hl, cmEnabled_iff.1 he⟩

/-- Settles O46: each service clears its flag in the one state it leaves, where a failed guard keeps
`ESTATE`. -/
theorem failedGuardStillAcknowledges : Obligations.FailedGuardStillAcknowledges := by
  refine fun s t b => ⟨fun h => ?pb, fun h => ?cm⟩
  case pb =>
    obtain ⟨-, -, rfl⟩ := servicePbWith_next_iff.1 h
    exact ⟨pbf_afterServicePb _ s, cmf_afterServicePb _ s, afterServicePb_of_not_guard⟩
  case cm =>
    obtain ⟨-, -, rfl⟩ := serviceCmWith_next_iff.1 h
    exact ⟨cmf_afterServiceCm _ s, pbf_afterServiceCm _ s, afterServiceCm_of_not_guard⟩

/-! ### The edge state (spec R170) -/

theorem eq_deasserted_of_ne_asserted {e : EState} (h : e ≠ .asserted) : e = .deasserted := by
  cases e
  · rfl
  · exact absurd rfl h

theorem eq_asserted_of_ne_deasserted {e : EState} (h : e ≠ .deasserted) : e = .asserted := by
  cases e
  · exact absurd rfl h
  · rfl

/-- Settles O30: a service that changes `ESTATE` passed its comparison, and so left the state it writes. -/
theorem onlyServicesChangeTheEdgeState : Obligations.OnlyServicesChangeTheEdgeState := by
  refine ⟨rfl, fun s t m hm hne => ?_⟩
  obtain ⟨rfl, b, ht⟩ | ⟨rfl, b, ht⟩ | ⟨-, -, hkept⟩ := effect_estate (effect_of_moves hm).2
  case inl =>
    split at ht
    · rw [ht] at hne
      exact .inl ⟨rfl, eq_deasserted_of_ne_asserted hne.symm, ht⟩
    · exact absurd ht hne
  case inr.inl =>
    split at ht
    · rw [ht] at hne
      exact .inr ⟨rfl, eq_asserted_of_ne_deasserted hne.symm, ht⟩
    · exact absurd ht hne
  case inr.inr => exact absurd hkept hne

/-! ### Where the written and the active value agree (spec R175) -/

/-- The written compare values under a move (spec R43). -/
theorem effect_ccr {s t : State} {m : Move} (h : Effect s m t) :
    (∃ i v, m = .instr (.setDuty (chOf i) v) ∧ t.ccr = s.ccr.set i v) ∨ t.ccr = s.ccr := by
  cases h with
  | setDuty i v => exact .inl ⟨i, v, rfl, rfl⟩
  | tick => exact .inr (by simp [tick_frame])
  | latch => exact .inr (by simp [latch_frame])
  | servicePb => exact .inr (by simp [assertEdge_eq])
  | serviceCm => exact .inr (by simp [deassertEdge_eq])
  | _ => exact .inr rfl

/-- A unit's written value is kept but by its own `SET_DUTY`. -/
theorem effect_ccr_get {s t : State} {m : Move} (h : Effect s m t) (j : Chan) :
    (∃ v, m = .instr (.setDuty (chOf j) v)) ∨ t.ccr.get j = s.ccr.get j := by
  obtain ⟨i, v, rfl, hccr⟩ | hccr := effect_ccr h
  · by_cases hj : j = i
    · exact .inl ⟨v, by rw [hj]⟩
    · exact .inr (by rw [hccr, get_set_other _ _ _ _ hj])
  · exact .inr (by rw [hccr])

/-- A unit's active value is kept or takes the written one (spec R150). -/
theorem effect_act_get {s t : State} {m : Move} (h : Effect s m t) (j : Chan) :
    t.act.get j = s.ccr.get j ∨ t.act.get j = s.act.get j := by
  obtain ⟨-, hact⟩ | ⟨i, -, hact⟩ | ⟨-, hact⟩ := effect_act h
  · split at hact
    · exact .inl (by rw [hact])
    · exact .inr (by rw [hact])
  · by_cases hj : j = i
    · exact .inl (by rw [hact, hj, get_set_same])
    · exact .inr (by rw [hact, get_set_other _ _ _ _ hj])
  · exact .inr (by rw [hact])

/-- A unit whose two values agree keeps them so but by its own `SET_DUTY`. -/
theorem effect_ccr_eq_act {s t : State} {m : Move} {j : Chan} (h : Effect s m t)
    (heq : s.ccr.get j = s.act.get j) :
    (∃ v, m = .instr (.setDuty (chOf j) v)) ∨ t.ccr.get j = t.act.get j := by
  refine (effect_ccr_get h j).imp_right fun hccr => ?_
  obtain hact | hact := effect_act_get h j
  · rw [hccr, hact]
  · rw [hccr, hact, heq]

/-- `LATCH` of a unit leaves its two values equal (spec R151). -/
theorem ccr_eq_act_of_moves_latch {s t : State} {j : Chan}
    (h : Moves s (.instr (.latch (chOf j))) t) : t.ccr.get j = t.act.get j := by
  obtain ⟨-, b, h⟩ := h
  obtain ⟨-, -, rfl⟩ := latchWith_chOf_next.1 h
  simp [latch_frame]

/-- A wrap leaves every unit's two values equal (spec R126). -/
theorem ccr_eq_act_of_moves_wrap {s t : State} (h : Moves s (.instr .tick) t)
    (hwrap : s.cnt = s.period - 1#16) : t.ccr = t.act := by
  obtain ⟨-, b, h⟩ := h
  obtain ⟨-, -, rfl⟩ := execTick_next.1 h
  simp [tick_frame, tick_act, hwrap]

/-- Settles O47: the services as moves over the two duty values, which are one value where they agree;
the agreement ends by `SET_DUTY 2` alone and is restored by `LATCH 2` and by a wrap. -/
theorem serviceDrawsWrittenOrActive : Obligations.ServiceDrawsWrittenOrActive := by
  refine ⟨?pbValue, ?pbEither, ?cmValue, ?cmEither, ?oneOutcome, rfl, ?agree⟩
  case pbValue =>
    intro s t h
    obtain ⟨-, -, d, hd, rfl⟩ := moves_servicePb_iff.1 h
    exact ⟨d, hd, rfl⟩
  case pbEither =>
    intro s d hl he hd
    exact ⟨_, moves_servicePb_iff.2 ⟨hl, he, d, hd, rfl⟩, rfl⟩
  case cmValue =>
    intro s t h
    obtain ⟨-, -, d, hd, rfl⟩ := moves_serviceCm_iff.1 h
    exact ⟨d, hd, rfl⟩
  case cmEither =>
    intro s d hl he hd
    exact ⟨_, moves_serviceCm_iff.2 ⟨hl, he, d, hd, rfl⟩, rfl⟩
  case oneOutcome =>
    intro s t t' heq
    rw [moves_servicePb_iff, moves_servicePb_iff, moves_serviceCm_iff, moves_serviceCm_iff, heq]
    simp only [or_self, exists_eq_left]
    exact ⟨fun ⟨_, _, ht⟩ ⟨_, _, ht'⟩ => ht.trans ht'.symm,
      fun ⟨_, _, ht⟩ ⟨_, _, ht'⟩ => ht.trans ht'.symm⟩
  case agree =>
    intro s t m h
    refine ⟨fun heq hne => ?_, ?_, ?_⟩
    · exact (effect_ccr_eq_act (j := .sw) (effect_of_moves h).2 heq).resolve_right hne
    · rintro rfl
      exact ccr_eq_act_of_moves_latch (j := .sw) h
    · rintro rfl hwrap
      rw [ccr_eq_act_of_moves_wrap h hwrap]

end Sys2Proof.Proofs

/-! SUPPORT. The obligations on the Duty Controller (spec R157, R200, R203): `SET_DUTY`'s word by the case
table of spec R96 over numbers, the one write it makes, and the host operations' answers where the compare
registers hold other values. -/

namespace Sys2Proof.Proofs

open Sys2Proof.Machine Sys2Proof.Safety Sys2Proof.Laws

/-! ### `SET_DUTY` (spec R200) -/

theorem chField_eq_ofNat (w : Word) : chField w = BitVec.ofNat 2 (w.toNat / 2 ^ 26) :=
  BitVec.eq_of_toNat_eq (toNat_chField w)

theorem encode_setDuty (ch : BitVec 2) (v : Val) : encode (.setDuty ch v) =
    BitVec.ofNat 32 (0x20000000 + ch.toNat * 2 ^ 26 + v.toNat) := by
  rw [encode_eq_ofNat]
  simp [opcode, chOperand, immOperand]

/-- `SET_DUTY` with `CH = 3` names no unit and records `BAD_CHANNEL` (spec R200). -/
theorem exec_setDuty_three {s : State} (v : Val) (hl : s.live = true) :
    exec (.setDuty 3#2 v) s = .next (raiseFault .badChannel (encode (.setDuty 3#2 v)) s) :=
  execSetDuty_next.2 ⟨hl, .inr ⟨rfl, rfl⟩⟩

/-- Settles O16: the word's fields as numbers, the write of the one unit that `CH` names, and the fault
of `CH = 3` with its word as a number. -/
theorem setDutyWritesOneCompareValue : Obligations.SetDutyWritesOneCompareValue := by
  refine ⟨fun w hop => ⟨fun hrsv => ?legal, fun hrsv => ?illegal⟩,
    fun v s hl => ⟨exec_setDuty_chOf .hw0 v hl, exec_setDuty_chOf .hw1 v hl,
      exec_setDuty_chOf .sw v hl, ?badChannel⟩⟩
  case legal =>
    rw [← chField_eq_ofNat, ← immField_eq_ofNat]
    exact decodeHost_ok_iff_toNat.2 ⟨hrsv, .inr (.inl ⟨hop, rfl⟩)⟩
  case illegal =>
    rw [illegalWord_iff, exists_decodeHost_ok_iff]
    exact fun ⟨hzero, _⟩ => hrsv hzero
  case badChannel =>
    rw [exec_setDuty_three v hl, encode_setDuty]
    rfl

/-! ### Who writes and who reads the compare values (spec R157, R203) -/

/-- A unit's written value changes by its own `SET_DUTY` alone, to the value that carries. -/
theorem setDuty_of_effect_ccr_ne {s t : State} {m : Move} {j : Chan} (h : Effect s m t)
    (hne : t.ccr.get j ≠ s.ccr.get j) :
    ∃ v, m = .instr (.setDuty (chOf j) v) ∧ t.ccr.get j = v := by
  obtain ⟨i, v, rfl, hccr⟩ | hccr := effect_ccr h
  · by_cases hj : j = i
    · subst hj
      exact ⟨v, rfl, by rw [hccr, get_set_same]⟩
    · exact absurd (by rw [hccr, get_set_other _ _ _ _ hj]) hne
  · exact absurd (by rw [hccr]) hne

/-- The state with other values in `CCR` and `ACT`. -/
def withCompare (c a : Bank) (s : State) : State := { s with ccr := c, act := a }

/-- A host operation reads no compare value: where it is answered it is answered with any others in
place, and leaves everything but `CCR` as before (spec R157). -/
theorem exec_host_withCompare {s t : State} {i : Instr} (c a : Bank) (hi : byHost i = true)
    (h : exec i s = .next t) : ∃ c', exec i (withCompare c a s) = .next (withCompare c' a t) := by
  obtain ⟨hl, heff⟩ := effect_of_exec h
  have hl' : (withCompare c a s).live = true := hl
  cases heff with
  | badPeriod => exact ⟨c, execConfigure_next.2 ⟨hl', .inl ⟨rfl, rfl⟩⟩⟩
  | reconfigure p hp hc => exact ⟨c, exec_configure_of_configured hl' hc hp⟩
  | configure p hp hc => exact ⟨c, exec_configure_of_not_configured hl' hc hp⟩
  | setDuty u v => exact ⟨c.set u v, exec_setDuty_chOf u v hl'⟩
  | badChannel v => exact ⟨c, exec_setDuty_three v hl'⟩
  | notConfigured m hm hc => exact ⟨c, exec_writeCtrl_of_not_configured hl' hc hm⟩
  | writeCtrl m hm => exact ⟨c, exec_writeCtrl_of_allowed hl' hm⟩
  | readCnt => exact ⟨c, execReadCnt_next.2 ⟨hl', rfl⟩⟩
  | delay n => exact ⟨c, (execDelay_next (n := n)).2 ⟨hl', rfl⟩⟩
  | tick | servicePb | serviceCm | latch => cases hi

/-- Settles O27: a changed `CCR[j]` is the write of a `SET_DUTY j`, and the host's answers do not depend
on the compare values. -/
theorem onlyTheHostWritesDutyValues : Obligations.OnlyTheHostWritesDutyValues := by
  refine ⟨fun s t m j hm hne => ?writes, fun s t i c a hi h => ?reads⟩
  case writes =>
    obtain ⟨v, rfl, hv⟩ := setDuty_of_effect_ccr_ne (effect_of_moves hm).2 hne
    exact ⟨rfl, v, rfl, hv⟩
  case reads =>
    obtain ⟨c', h'⟩ := exec_host_withCompare c a hi h
    exact ⟨_, h', rfl⟩

end Sys2Proof.Proofs

/-! SUPPORT. The obligations on the Fade Sequencer's statements (spec R104, R211, R212, R214): the host's
own word `DELAY` against the case table of spec R96, and the operand values of a pair-fade as numbers. -/

namespace Sys2Proof.Proofs

open Sys2Proof.Machine Sys2Proof.Safety Sys2Proof.Laws

/-! ### `DELAY` (spec R214) -/

theorem encode_delay (n : Val) : encode (.delay n) = BitVec.ofNat 32 (0x50000000 + n.toNat) := by
  rw [encode_eq_ofNat]
  simp [opcode, chOperand, immOperand]

theorem decodeOwn_encode_delay (n : Val) : decodeOwn (encode (.delay n)) = .ok (.delay n) := by
  simp [decodeOwn, fixedZero, opcode, chOperand, immOperand]

/-- No row of the case table of spec R96 has the code of `DELAY`. -/
theorem illegalWord_encode_delay (n : Val) : IllegalWord (encode (.delay n)) := by
  refine illegalWord_of_rejected fun i h => ?_
  obtain ⟨-, ⟨hop, -⟩ | ⟨hop, -⟩ | ⟨hop, -⟩ | ⟨hop, -⟩⟩ := decodeHost_ok h <;>
    simp [opcode] at hop

/-- Settles O17: the word as the encoding of `DELAY`, which only the host's own decoder accepts, and the
one field the statement writes. -/
theorem delayMovesOnlyTheHost : Obligations.DelayMovesOnlyTheHost := by
  refine ⟨fun n => ?word, fun n s hl => ?moves⟩
  case word =>
    rw [← encode_delay]
    exact ⟨decodeOwn_encode_delay n, illegalWord_encode_delay n⟩
  case moves => exact (execDelay_next (n := n)).2 ⟨hl, rfl⟩

/-! ### The program's text (spec R211, R212) -/

/-- A pair-fade's counter fits the target's operand. -/
theorem toNat_target_operand {p : Val} {i : Nat} (hi : i ≤ p.toNat) :
    (BitVec.ofNat 16 i).toNat = i := by
  rw [BitVec.toNat_ofNat, Nat.mod_eq_of_lt (hi.trans_lt p.isLt)]

/-- The source's operand counts down from the period, without wrapping. -/
theorem toNat_source_operand {p : Val} {i : Nat} (hi : i ≤ p.toNat) :
    (p - BitVec.ofNat 16 i).toNat = p.toNat - i := by
  have hofNat := toNat_target_operand hi
  rw [BitVec.toNat_sub_of_le (by rwa [BitVec.le_def, hofNat]), hofNat]

/-- Settles O57: the two operands of a pair-fade are the numbers `P - i` and `i`, because `i` is at most
`P`; the rest is the text of the program and of the pseudo-operations. -/
theorem fadeProgramText : Obligations.FadeProgramText := by
  refine ⟨rfl, rfl, fun _ => ⟨rfl, rfl, rfl⟩, fun _ _ _ => rfl, fun f k i hi => ?_⟩
  have hsource : ∃ v : Val, v.toNat = f.period.toNat - i ∧
      FadePc.instr f (.run k i .s0) = .setDuty (chOf (f.chmap k.source)) v :=
    ⟨_, toNat_source_operand hi, rfl⟩
  have htarget : ∃ v : Val, v.toNat = i ∧
      FadePc.instr f (.run k i .s1) = .setDuty (chOf (f.chmap k.target)) v :=
    ⟨_, toNat_target_operand hi, rfl⟩
  exact ⟨rfl, rfl, rfl, rfl, hsource, htarget, rfl, rfl, rfl, rfl, rfl, rfl, rfl⟩

end Sys2Proof.Proofs

/-! SUPPORT. The obligations on exceptions and on the pending flags (spec R127, R231 to R234, R236). That a
record stops every agent is the contrapositive of the model's inversion lemmas, each of which yields a live
state; what is recorded, and what happens to the flags, is read off what a move can do. -/

namespace Sys2Proof.Proofs

open Sys2Proof.Machine Sys2Proof.Safety Sys2Proof.Laws

/-! ### A record stops every agent (spec R231, R233) -/

theorem live_ne_true_of_fault {s : State} {p : FaultCode × Word} (h : s.fault = some p) :
    s.live ≠ true := by
  simp [State.live, h]

theorem live_ne_true_of_refused {s : State} {p : RefuseReason × Word} (h : s.refused = some p) :
    s.live ≠ true := by
  simp [State.live, h]

/-- Where something is recorded, no meaning, no step and no move answers a next state. -/
theorem no_next_of_not_live {s : State} (hl : s.live ≠ true) :
    (∀ i t, exec i s ≠ .next t) ∧ (∀ b i t, execWith b i s ≠ .next t) ∧ (∀ t, step s ≠ .next t) ∧
      ∀ m t, ¬ Moves s m t :=
  ⟨fun _ _ h => hl (effect_of_exec h).1, fun _ _ _ h => hl (effect_of_execWith h).1,
    fun _ h => hl (step_next h).1, fun _ _ h => hl (effect_of_moves h).1⟩

/-- Settles O22: a state with a fault recorded is not live, so it answers nothing. -/
theorem faultStopsEveryAgent : Obligations.FaultStopsEveryAgent :=
  ⟨fun _ _ _ => rfl, fun _ _ _ h => no_next_of_not_live (live_ne_true_of_fault h)⟩

/-! ### Who records a refusal or a fault (spec R232, R233) -/

/-- The timer and the interrupt context record nothing. -/
theorem records_kept_of_effect_not_byHost {s t : State} {i : Instr} (hi : byHost i = false)
    (h : Effect s (.instr i) t) : t.fault = s.fault ∧ t.refused = s.refused := by
  cases h with
  | tick => simp [tick_frame]
  | latch => simp [latch_frame]
  | servicePb => simp [assertEdge_eq]
  | serviceCm => simp [deassertEdge_eq]
  | _ => cases hi

/-- `REFUSED` under a move: only a second `CONFIGURE` writes it (spec R233). -/
theorem effect_refused {s t : State} {m : Move} (h : Effect s m t) :
    t.refused = s.refused ∨ ∃ p, m = .instr (.configure p) ∧ p ≠ 0#16 ∧ s.configured = true ∧
      t.refused = some (.reconfigure, encode (.configure p)) := by
  cases h with
  | reconfigure p hp hc => exact .inr ⟨p, rfl, hp, hc, rfl⟩
  | tick he => exact .inl (records_kept_of_effect_not_byHost rfl (.tick he)).2
  | latch b i he => exact .inl (records_kept_of_effect_not_byHost rfl (.latch b i he)).2
  | servicePb b he => exact .inl (records_kept_of_effect_not_byHost rfl (.servicePb b he)).2
  | serviceCm b he => exact .inl (records_kept_of_effect_not_byHost rfl (.serviceCm b he)).2
  | _ => exact .inl rfl

/-- Settles O23: a state with a refusal recorded is not live, and the one move that records a refusal is
a second `CONFIGURE`. -/
theorem refusalStopsEveryAgent : Obligations.RefusalStopsEveryAgent := by
  refine ⟨fun _ _ _ => rfl, fun s r w h => ?stops, fun s t m r w hnone hm hrec => ?cause⟩
  case stops =>
    obtain ⟨hexec, -, hstep, hmoves⟩ := no_next_of_not_live (live_ne_true_of_refused h)
    exact ⟨hexec, hstep, hmoves⟩
  case cause =>
    obtain hkept | ⟨p, rfl, hp, hc, hnew⟩ := effect_refused (effect_of_moves hm).2
    · simp [hkept, hnone] at hrec
    · obtain ⟨rfl, rfl⟩ : r = .reconfigure ∧ w = encode (.configure p) := by
        simpa using hrec.symm.trans hnew
      exact ⟨rfl, p, rfl, hp, hc, rfl⟩

/-- `CH = 3` is the only value that names no unit (spec R94). -/
theorem ne_three_iff_exists_chOf {ch : BitVec 2} : ch ≠ 3#2 ↔ ∃ i, ch = chOf i := by
  rw [ne_eq, ← chan_none, Option.eq_none_iff_forall_ne_some]
  simp [chan_some]

theorem chOf_ne_three (i : Chan) : chOf i ≠ 3#2 := ne_three_iff_exists_chOf.2 ⟨i, rfl⟩

/-- The table of spec R232: move `m` in `s` raises the fault of code `c` for the host word `w`. -/
def RaisesFault (s : State) (m : Move) (c : FaultCode) (w : Word) : Prop :=
  (c = .illegalOp ∧ m = .illegal w) ∨
  (c = .badChannel ∧ ∃ v, m = .instr (.setDuty 3#2 v) ∧ w = encode (.setDuty 3#2 v)) ∨
  (c = .badPeriod ∧ m = .instr (.configure 0#16) ∧ w = encode (.configure 0#16)) ∨
  (c = .notConfigured ∧ ∃ n, m = .instr (.writeCtrl n) ∧ w = encode (.writeCtrl n) ∧
    n.getLsbD 0 = true ∧ s.configured = false)

/-- No row of the table is a step of the timer or of the interrupt context. -/
theorem not_raisesFault_of_not_byHost {s : State} {i : Instr} (hi : byHost i = false) (c : FaultCode)
    (w : Word) : ¬ RaisesFault s (.instr i) c w := by
  rintro (⟨-, hm⟩ | ⟨-, v, hm, -⟩ | ⟨-, hm, -⟩ | ⟨-, n, hm, -⟩) <;> cases hm <;> cases hi

theorem fault_iff_of_not_byHost {s t : State} {i : Instr} {c : FaultCode} {w : Word}
    (hi : byHost i = false) (h : Effect s (.instr i) t) (hnone : s.fault = none) :
    t.fault = some (c, w) ↔ RaisesFault s (.instr i) c w := by
  obtain ⟨hkept, -⟩ := records_kept_of_effect_not_byHost hi h
  exact iff_of_false (by simp [hkept, hnone]) (not_raisesFault_of_not_byHost hi c w)

theorem raiseFault_fault_iff {s : State} {c c' : FaultCode} {w w' : Word} :
    (raiseFault c' w' s).fault = some (c, w) ↔ c = c' ∧ w = w' := by
  simp [eq_comm]

/-- `FAULT` under a move (spec R232). -/
theorem effect_fault_iff {s t : State} {m : Move} (h : Effect s m t) (hnone : s.fault = none)
    (c : FaultCode) (w : Word) : t.fault = some (c, w) ↔ RaisesFault s m c w := by
  have hkept (heq : t.fault = s.fault) (hno : ¬ RaisesFault s m c w) :
      t.fault = some (c, w) ↔ RaisesFault s m c w :=
    iff_of_false (by simp [heq, hnone]) hno
  cases h with
  | illegal v => rw [raiseFault_fault_iff]; simp [RaisesFault, eq_comm (a := v)]
  | badPeriod => rw [raiseFault_fault_iff]; simp [RaisesFault]
  | badChannel v => rw [raiseFault_fault_iff]; simp [RaisesFault]
  | notConfigured n hn hc =>
    rw [raiseFault_fault_iff]
    simp [RaisesFault, hc, -BitVec.getLsbD_eq_getElem, hn]
  | configure p hp | reconfigure p hp => exact hkept rfl (by simp [RaisesFault, hp])
  | setDuty i v => exact hkept rfl (by simp [RaisesFault, chOf_ne_three])
  | writeCtrl n hn =>
    refine hkept rfl ?_
    rintro (⟨-, ⟨⟩⟩ | ⟨-, _, ⟨⟩, -⟩ | ⟨-, ⟨⟩, -⟩ | ⟨-, _, ⟨⟩, -, hcen, hc⟩)
    exact Bool.false_ne_true (hc.symm.trans (hn hcen))
  | readCnt | delay => exact hkept rfl (by simp [RaisesFault])
  | tick he => exact fault_iff_of_not_byHost rfl (.tick he) hnone
  | servicePb b he => exact fault_iff_of_not_byHost rfl (.servicePb b he) hnone
  | serviceCm b he => exact fault_iff_of_not_byHost rfl (.serviceCm b he) hnone
  | latch b i he => exact fault_iff_of_not_byHost rfl (.latch b i he) hnone

/-- Settles O24: the numbers of the codes, and the table of spec R232 row by row. -/
theorem faultCodesComplete : Obligations.FaultCodesComplete :=
  ⟨rfl, rfl, rfl, rfl, fun _ _ _ hnone hm => effect_fault_iff (effect_of_moves hm).2 hnone⟩

/-! ### What records nothing (spec R234) -/

theorem live_congr {s t : State} (h : t.fault = s.fault ∧ t.refused = s.refused) :
    t.live = s.live := by
  simp [State.live, h]

/-- A taken step of the timer or of the interrupt context leaves a live state. -/
theorem live_of_exec_not_byHost {s t : State} {i : Instr} (hi : byHost i = false)
    (h : exec i s = .next t) : t.live = true := by
  obtain ⟨hl, heff⟩ := effect_of_exec h
  rw [live_congr (records_kept_of_effect_not_byHost hi heff), hl]

/-- A flag that a `TICK` finds set stays set: an overrun merges (spec R39, R40). -/
theorem tick_keeps_flags (s : State) : (s.pbf = true → (compareMatch (count s)).pbf = true) ∧
    (s.cmf = true → (compareMatch (count s)).cmf = true) := by
  rw [tick_pbf, tick_cmf]
  exact ⟨fun h => by rw [h, Bool.true_or], fun h => by rw [h, Bool.true_or]⟩

/-- Settles O25: each host operation of the list is answered by its success, which records nothing, and
the other agents' steps never record anything. -/
theorem whatIsNoFault : Obligations.WhatIsNoFault := by
  refine fun s hl => ⟨fun ch v hch => ?setDuty, ?readCnt, fun m hm => ?writeCtrl, fun t => ?agents,
    fun t h => ?overrun⟩
  case setDuty =>
    obtain ⟨i, rfl⟩ := ne_three_iff_exists_chOf.1 hch
    exact ⟨_, exec_setDuty_chOf i v hl, hl⟩
  case readCnt => exact ⟨_, execReadCnt_next.2 ⟨hl, rfl⟩, hl⟩
  case writeCtrl =>
    exact ⟨_, exec_writeCtrl_of_allowed hl fun hcen => absurd (hm.symm.trans hcen) nofun, hl⟩
  case agents =>
    rintro (h | h | h)
    all_goals exact live_of_exec_not_byHost rfl h
  case overrun =>
    obtain ⟨-, -, rfl⟩ := execTick_next.1 h
    exact tick_keeps_flags s

/-! ### The pending flags (spec R127, R236) -/

/-- The state with other enables in `CTRL`. -/
def withCtrl (c : BitVec 4) (s : State) : State := { s with ctrl := c }

theorem count_withCtrl (c : BitVec 4) (s : State) : count (withCtrl c s) = withCtrl c (count s) := by
  unfold count
  rw [apply_ite (withCtrl c)]
  rfl

theorem compareMatch_withCtrl (c : BitVec 4) (s : State) :
    compareMatch (withCtrl c s) = withCtrl c (compareMatch s) := by
  unfold compareMatch
  rw [apply_ite (withCtrl c)]
  rfl

/-- `LATCH` loads and raises its event the same whatever the enables are (spec R127). -/
theorem latchUnit_withCtrl (b : Bool) (i : Chan) (c : BitVec 4) (s : State) :
    latchUnit b i (withCtrl c s) = withCtrl c (latchUnit b i s) := by
  unfold latchUnit freshMatch
  rw [apply_ite (withCtrl c)]
  cases b <;> rfl

/-- Only `SERVICE_PB` clears `PBF` and only `TICK` sets it (spec R236). -/
theorem effect_pbf_changes {s t : State} {m : Move} (h : Effect s m t) :
    (s.pbf = true → t.pbf = false → m = .instr .servicePb) ∧
    (s.pbf = false → t.pbf = true → m = .instr .tick) := by
  obtain ⟨rfl, hpbf⟩ | ⟨rfl, hpbf⟩ | ⟨-, -, hkept⟩ := effect_pbf h
  · exact ⟨fun hs ht => by simp [hpbf, hs] at ht, fun _ _ => rfl⟩
  · exact ⟨fun _ _ => rfl, fun _ ht => by simp [hpbf] at ht⟩
  · exact ⟨fun hs ht => by simp [hkept, hs] at ht, fun hs ht => by simp [hkept, hs] at ht⟩

/-- Only `SERVICE_CM` clears `CMF`, and only `TICK` and `LATCH 2` set it (spec R151, R236). -/
theorem effect_cmf_changes {s t : State} {m : Move} (h : Effect s m t) :
    (s.cmf = true → t.cmf = false → m = .instr .serviceCm) ∧
    (s.cmf = false → t.cmf = true → m = .instr .tick ∨ m = .instr (.latch 2#2)) := by
  obtain ⟨rfl, hcmf⟩ | ⟨rfl, hcmf⟩ | ⟨rfl, hkept | ⟨hset, -⟩⟩ | ⟨-, -, hkept⟩ := effect_cmf h
  · exact ⟨fun hs ht => by simp [hcmf, hs] at ht, fun _ _ => .inl rfl⟩
  · exact ⟨fun _ _ => rfl, fun _ ht => by simp [hcmf] at ht⟩
  · exact ⟨fun hs ht => by simp [hkept, hs] at ht, fun _ _ => .inr rfl⟩
  · exact ⟨fun _ ht => by simp [hset] at ht, fun _ _ => .inr rfl⟩
  · exact ⟨fun hs ht => by simp [hkept, hs] at ht, fun hs ht => by simp [hkept, hs] at ht⟩

/-- Settles O32: a flag's changes read off what a move can do, the timer's two steps under other enables,
and the services' conditions over the `CTRL` just written. -/
theorem pendingFlags : Obligations.PendingFlags := by
  refine ⟨fun s t m h => ?changes, fun s t t' c _ h h' => ?tick, fun s t b ch c h => ?latch,
    fun s m hl hm => ?masks⟩
  case changes =>
    have heff := (effect_of_moves h).2
    obtain ⟨hpbClear, hpbSet⟩ := effect_pbf_changes heff
    obtain ⟨hcmClear, hcmSet⟩ := effect_cmf_changes heff
    exact ⟨hpbClear, hcmClear, hpbSet, hcmSet⟩
  case tick =>
    obtain ⟨-, -, rfl⟩ := execTick_next.1 h
    obtain ⟨-, -, rfl⟩ := execTick_next.1 h'
    exact (congrArg compareMatch (count_withCtrl c s)).trans (compareMatch_withCtrl c (count s))
  case latch =>
    obtain ⟨hl, i, hch, he, rfl⟩ := latchWith_next.1 h
    exact latchWith_next.2 ⟨hl, i, hch, he, (latchUnit_withCtrl b i c s).symm⟩
  case masks =>
    refine ⟨_, exec_writeCtrl_of_allowed hl hm, rfl, fun hoff t' h => ?_, fun hoff t' h => ?_,
      fun hgie hpbie hpbf => ?_, fun hgie hcmie hcmf => ?_⟩
    · obtain ⟨-, he⟩ := exists_exec_servicePb_iff.1 ⟨t', h⟩
      obtain ⟨hgie, hpbie, -⟩ := pbEnabled_iff.1 he
      exact hoff.elim (fun h => nomatch h.symm.trans hgie) (fun h => nomatch h.symm.trans hpbie)
    · obtain ⟨-, he⟩ := exists_exec_serviceCm_iff.1 ⟨t', h⟩
      obtain ⟨hgie, hcmie, -⟩ := cmEnabled_iff.1 he
      exact hoff.elim (fun h => nomatch h.symm.trans hgie) (fun h => nomatch h.symm.trans hcmie)
    · exact exists_exec_servicePb_iff.2 ⟨hl, pbEnabled_iff.2 ⟨hgie, hpbie, hpbf⟩⟩
    · exact exists_exec_serviceCm_iff.2 ⟨hl, cmEnabled_iff.2 ⟨hgie, hcmie, hcmf⟩⟩

end Sys2Proof.Proofs

/-! SUPPORT. The obligation on the state at reset (spec R52, R270). Its two banks hold one value in all
three units, so what a unit reads there does not depend on the unit. -/

namespace Sys2Proof.Proofs

open Sys2Proof.Machine

/-- A bank with one value in all its units reads that value at every unit (spec R43, R44). -/
theorem get_constant_bank (v : Val) (i : Chan) : Bank.get ⟨v, v, v⟩ i = v := by
  cases i <;> rfl

/-- `CTRL` is 0 at reset, so the four bits named in it are 0 (spec R36, R52). -/
theorem reset_ctrl_bits : State.reset.cen = false ∧ State.reset.pbie = false ∧
    State.reset.cmie = false ∧ State.reset.gie = false :=
  ⟨rfl, rfl, rfl, rfl⟩

/-- `STATUS` is 0 at reset, so neither flag is pending (spec R39, R40, R52). -/
theorem reset_status_bits : State.reset.pbf = false ∧ State.reset.cmf = false :=
  ⟨rfl, rfl⟩

/-- Both compare values of every unit are 0 at reset (spec R43, R44, R52). -/
theorem reset_compare_values (i : Chan) :
    State.reset.ccr.get i = 0#16 ∧ State.reset.act.get i = 0#16 :=
  ⟨get_constant_bank 0#16 i, get_constant_bank 0#16 i⟩

/-- Settles O7: the bits of `CTRL` and `STATUS`, the compare values of every unit, and the fields that
stand in the reset state as the spec gives them. -/
theorem resetState : Obligations.ResetState := by
  obtain ⟨hcen, hpbie, hcmie, hgie⟩ := reset_ctrl_bits
  obtain ⟨hpbf, hcmf⟩ := reset_status_bits
  exact ⟨rfl, rfl, rfl, rfl, hcen, hpbie, hcmie, hgie, hpbf, hcmf, reset_compare_values,
    rfl, rfl, rfl, rfl⟩

end Sys2Proof.Proofs

/-! SUPPORT. The obligations on the encoding and on what a step executes (spec R90 to R97, R102, R105).
Each of the three decoders accepts exactly the words of its own well-formed instructions; the decoder of a
recorded run chooses among them by the code of the word. -/

namespace Sys2Proof.Proofs

open Sys2Proof.Machine Sys2Proof.Safety Sys2Proof.Laws

/-! ### Every accepted word is the word of its instruction -/

/-- A word is that of any instruction whose code and operands its fields hold. -/
theorem encode_eq_of_fields {w : Word} {i : Instr} (hrsv : rsvField w = 0#10)
    (hop : opField w = opcode i) (hch : chField w = chOperand i) (himm : immField w = immOperand i) :
    encode i = w := by
  rw [encode, ← hop, ← hch, ← himm, pack_fields w hrsv]

/-- A word that `decode_host` accepts is the word of the operation it answers. -/
theorem encode_of_decodeHost {w : Word} {i : Instr} (h : decodeHost w = .ok i) :
    encode i = w ∧ i.wellFormed = true := by
  obtain ⟨hrsv, ⟨hop, hch, rfl⟩ | ⟨hop, rfl⟩ | ⟨hop, hch, hhigh, rfl⟩ | ⟨hop, hch, himm, rfl⟩⟩ :=
    decodeHost_ok h
  · exact ⟨encode_eq_of_fields hrsv hop hch rfl, rfl⟩
  · exact ⟨encode_eq_of_fields hrsv hop rfl rfl, rfl⟩
  · rw [immHigh_eq] at hhigh
    have himm : immField w = 0#12 ++ immCtrl w := by rw [immCtrl_eq, ctrl_operand_eq _ hhigh]
    exact ⟨encode_eq_of_fields hrsv hop hch himm, rfl⟩
  · exact ⟨encode_eq_of_fields hrsv hop hch himm, rfl⟩

/-- A word that the host executes itself is the word of its `DELAY`. -/
theorem encode_of_decodeOwn {w : Word} {i : Instr} (h : decodeOwn w = .ok i) :
    encode i = w ∧ i.wellFormed = true := by
  obtain ⟨hrsv, hop, hch, rfl⟩ := decodeOwn_ok h
  exact ⟨encode_eq_of_fields hrsv hop hch rfl, rfl⟩

/-- A label word is the word of the step it names. -/
theorem encode_of_decodeLabel {w : Word} {i : Instr} (h : decodeLabel w = .ok i) :
    encode i = w ∧ i.wellFormed = true := by
  obtain ⟨hrsv, ⟨hop, hch, himm, rfl⟩ | ⟨hop, hch, himm, rfl⟩ | ⟨hop, hch, himm, rfl⟩ |
    ⟨hop, hch, himm, rfl⟩⟩ := decodeLabel_ok h
  · exact ⟨encode_eq_of_fields hrsv hop hch himm, rfl⟩
  · exact ⟨encode_eq_of_fields hrsv hop hch himm, rfl⟩
  · exact ⟨encode_eq_of_fields hrsv hop hch himm, rfl⟩
  · exact ⟨encode_eq_of_fields hrsv hop rfl himm, decide_eq_true hch⟩

/-- Settles O3: whichever decoder reads the word, the word is the packing of the fields it read. -/
theorem encodeOfDecode : Obligations.EncodeOfDecode := by
  intro w i h
  unfold decodeWord at h
  split at h
  · exact encode_of_decodeOwn h
  · exact encode_of_decodeLabel h
  · exact encode_of_decodeHost h

/-! ### The word of every well-formed instruction is accepted -/

/-- The kind of word each instruction has (spec R95). -/
def kindOf : Instr → WordKind
  | .delay _ => .own
  | .tick | .servicePb | .serviceCm | .latch _ => .label
  | .configure _ | .setDuty _ _ | .writeCtrl _ | .readCnt => .toBlock

/-- The labels are the instructions that are not the host's (spec R91). -/
theorem kindOf_eq_label_iff {i : Instr} : kindOf i = .label ↔ byHost i = false := by
  cases i <;> simp [kindOf, byHost]

theorem wordKind_encode (i : Instr) : wordKind (encode i) = kindOf i := by
  cases i <;> simp [wordKind, opcode, kindOf]

/-- `decode_host` reads each operation of the block from its word. -/
theorem decodeHost_encode {i : Instr} (hi : kindOf i = .toBlock) : decodeHost (encode i) = .ok i := by
  simp only [decodeHost_ok_iff, immHigh_eq, immCtrl_eq, rsvField_encode, opField_encode,
    chField_encode, immField_encode, true_and]
  cases i with
  | configure p => exact .inl ⟨rfl, rfl, rfl⟩
  | setDuty ch v => exact .inr (.inl ⟨rfl, rfl⟩)
  | writeCtrl m =>
    obtain ⟨hhigh, hlow⟩ := ctrl_operand m
    exact .inr (.inr (.inl ⟨rfl, rfl, hhigh, congrArg _ hlow.symm⟩))
  | readCnt => exact .inr (.inr (.inr ⟨rfl, rfl, rfl, rfl⟩))
  | delay n | tick | servicePb | serviceCm | latch ch => cases hi

/-- Each step label that names a step is read from its word. -/
theorem decodeLabel_encode {i : Instr} (hi : kindOf i = .label) (hw : i.wellFormed = true) :
    decodeLabel (encode i) = .ok i := by
  cases i with
  | tick | servicePb | serviceCm => rfl
  | latch ch =>
    have hch : ch ≠ 3#2 := of_decide_eq_true hw
    simp [decodeLabel, opcode, chOperand, immOperand, hch]
  | configure p | setDuty ch v | writeCtrl m | readCnt | delay n => cases hi

/-- A recorded run's decoder reads each well-formed instruction from its word (spec R102). -/
theorem decodeWord_encode {i : Instr} (hw : i.wellFormed = true) : decodeWord (encode i) = .ok i := by
  unfold decodeWord
  rw [wordKind_encode]
  cases hk : kindOf i with
  | own =>
    cases i with
    | delay n => exact decodeOwn_encode_delay n
    | _ => cases hk
  | label => exact decodeLabel_encode hk hw
  | toBlock => exact decodeHost_encode hk

/-- A word of the table with all 32 bits given is that word. -/
theorem tableWord_toNat (w : Word) : tableWord 32 w.toNat = w := by
  rw [tableWord, Nat.mod_eq_of_lt w.isLt, BitVec.ofNat_toNat, BitVec.setWidth_eq]

theorem decodeTableWord_encode {i : Instr} (hw : i.wellFormed = true) :
    decodeTableWord 32 (encode i).toNat = some i := by
  simp only [decodeTableWord, tableWord_toNat, decodeWord_encode hw]

/-- Settles O2: the decoder that the instruction's code selects reads its operands back. -/
theorem decodeOfEncode : Obligations.DecodeOfEncode :=
  fun _ hw => ⟨decodeWord_encode hw, decodeTableWord_encode hw⟩

/-! ### The label words and the host's own word as numbers (spec R91, R92) -/

theorem decodeLabel_ok_iff {w : Word} {i : Instr} : decodeLabel w = .ok i ↔
    w = encode i ∧ kindOf i = .label ∧ i.wellFormed = true := by
  constructor
  · intro h
    obtain ⟨hencode, hw⟩ := encode_of_decodeLabel h
    refine ⟨hencode.symm, ?_, hw⟩
    obtain ⟨-, ⟨-, -, -, rfl⟩ | ⟨-, -, -, rfl⟩ | ⟨-, -, -, rfl⟩ | ⟨-, -, -, rfl⟩⟩ :=
      decodeLabel_ok h <;> rfl
  · rintro ⟨rfl, hk, hw⟩
    exact decodeLabel_encode hk hw

theorem decodeOwn_ok_iff {w : Word} {i : Instr} : decodeOwn w = .ok i ↔
    ∃ n : Val, w = encode (.delay n) ∧ i = .delay n := by
  constructor
  · intro h
    obtain ⟨-, -, -, rfl⟩ := decodeOwn_ok h
    exact ⟨_, (encode_of_decodeOwn h).1.symm, rfl⟩
  · rintro ⟨n, rfl, rfl⟩
    exact decodeOwn_encode_delay n

theorem toNat_encode_latch : ∀ ch : BitVec 2,
    (encode (.latch ch)).toNat = 0xB0000000 + ch.toNat * 2 ^ 26 := by
  decide

theorem toNat_encode_delay (n : Val) : (encode (.delay n)).toNat = 0x50000000 + n.toNat := by
  rw [encode_delay, BitVec.toNat_ofNat]
  omega

/-- Settles O6: a decoder's words are those of its own instructions, each a number; `LATCH` of no unit is
not well-formed. -/
theorem labelWordDecoding : Obligations.LabelWordDecoding := by
  refine ⟨fun w i => ?label, fun w i => ?own, rfl⟩
  case label =>
    rw [decodeLabel_ok_iff, ← BitVec.toNat_inj]
    constructor
    · rintro ⟨hw, hk, hwf⟩
      cases i with
      | tick => exact .inl ⟨hw, rfl⟩
      | servicePb => exact .inr (.inl ⟨hw, rfl⟩)
      | serviceCm => exact .inr (.inr (.inl ⟨hw, rfl⟩))
      | latch ch =>
        exact .inr (.inr (.inr ⟨ch, of_decide_eq_true hwf, hw.trans (toNat_encode_latch ch), rfl⟩))
      | configure p | setDuty ch v | writeCtrl m | readCnt | delay n => cases hk
    · rintro (⟨hw, rfl⟩ | ⟨hw, rfl⟩ | ⟨hw, rfl⟩ | ⟨ch, hch, hw, rfl⟩)
      · exact ⟨hw, rfl, rfl⟩
      · exact ⟨hw, rfl, rfl⟩
      · exact ⟨hw, rfl, rfl⟩
      · exact ⟨hw.trans (toNat_encode_latch ch).symm, rfl, decide_eq_true hch⟩
  case own => simp only [decodeOwn_ok_iff, ← BitVec.toNat_inj, toNat_encode_delay]

/-! ### The worked encodings (spec R105) -/

/-- Settles O1: each row of the table evaluated, and the fault of `CH = 3` with its word. -/
theorem workedEncodings : Obligations.WorkedEncodings :=
  ⟨by decide, fun _ hl => exec_setDuty_three 1#16 hl⟩

/-! ### What a step executes (spec R96, R102, R210) -/

theorem fetchTurn_toBlock {s : State} {w : Word} {i : Instr} (hpc : s.pc.stmt? = some (.toBlock w))
    (hd : decodeHost w = .ok i) : fetchTurn .host s = .instr i s := by
  simp only [fetchTurn, hpc, hd]

theorem fetchTurn_own {s : State} {w : Word} {i : Instr} (hpc : s.pc.stmt? = some (.own w))
    (hd : decodeHostOwn w = .ok i) : fetchTurn .host s = .instr i s := by
  simp only [fetchTurn, hpc, hd]

theorem fetchTurn_own_illegal {s : State} {w : Word} (hpc : s.pc.stmt? = some (.own w))
    (hown : ∀ i, decodeOwn w ≠ .ok i) (hhost : ∀ i, decodeHost w ≠ .ok i) :
    fetchTurn .host s = .illegal w s := by
  cases hd : decodeHost w with
  | ok i => exact absurd hd (hhost i)
  | error r => simp only [fetchTurn, hpc, decodeHostOwn_host hown, hd]

theorem fetchTurn_label_rejected {w : Word} (s : State) (hw : ∀ i, decodeLabel w ≠ .ok i) :
    fetchTurn (.label w) s = .stop (.noSuchStep w) := by
  cases hd : decodeLabel w with
  | ok i => exact absurd hd (hw i)
  | error r => simp only [fetchTurn, hd]

/-- A step whose next turn is an instruction, for a scheduled turn. -/
theorem step_scheduled {s : State} {tn : Turn} {rest : List Turn} {i : Instr} (hl : s.live = true)
    (hs : s.schedule = tn :: rest)
    (hf : fetchTurn tn { s with schedule := rest } = .instr i { s with schedule := rest }) :
    step s = exec i { s with schedule := rest } :=
  step_instr hl (nextTurn_of_schedule hs) hf

/-- A label's word that is placed is executed next, in the state it was placed in. -/
theorem step_withFetchWord_label {s : State} {i : Instr} (hl : s.live = true)
    (hk : kindOf i = .label) (hw : i.wellFormed = true) :
    step (s.withFetchWord 32 (encode i).toNat) = exec i s := by
  have hplace : s.withFetchWord 32 (encode i).toNat =
      { s with schedule := .label (encode i) :: s.schedule } := by
    simp only [State.withFetchWord, tableWord_toNat, placeWord, wordKind_encode, hk]
  rw [hplace]
  exact step_scheduled hl rfl (fetchTurn_label_ok _ (decodeLabel_encode hk hw))

/-- A host word that is placed is executed next, as the statement pushed for it. -/
theorem step_withFetchWord_host {s : State} {i : Instr} (hl : s.live = true)
    (hi : byHost i = true) : ∃ st, step (s.withFetchWord 32 (encode i).toNat) =
      exec i { s with pc := s.pc.push st } := by
  have hpush (st : HostStmt)
      (hplace : placeWord (encode i) s =
        { s with pc := s.pc.push st, schedule := .host :: s.schedule })
      (hf : ∀ s', s'.pc.stmt? = some st → fetchTurn .host s' = .instr i s') :
      step (s.withFetchWord 32 (encode i).toNat) = exec i { s with pc := s.pc.push st } := by
    rw [State.withFetchWord, tableWord_toNat, hplace]
    exact step_scheduled hl rfl (hf _ (stmt_push st s.pc))
  cases hk : kindOf i with
  | own =>
    refine ⟨.own (encode i), hpush _ ?_ fun s' hpc => fetchTurn_own hpc (decodeHostOwn_delay ?_)⟩
    · simp only [placeWord, wordKind_encode, hk]
    · cases i with
      | delay n => exact decodeOwn_encode_delay n
      | _ => cases hk
  | toBlock =>
    refine ⟨.toBlock (encode i),
      hpush _ ?_ fun s' hpc => fetchTurn_toBlock hpc (decodeHost_encode hk)⟩
    simp only [placeWord, wordKind_encode, hk]
  | label => exact nomatch hi.symm.trans (kindOf_eq_label_iff.1 hk)

/-- Settles O9: the scheduled turn is the one fetched, and a placed word is a scheduled turn. -/
theorem stepRunsDecodedInstruction : Obligations.StepRunsDecodedInstruction := by
  refine ⟨fun s w i rest hl => ⟨fun hs hd => ?label, fun hs hpc hd => ?host, fun hs hpc hd => ?own⟩,
    fun s w rest hl hs hpc hown => ⟨fun i hd => ?ownAsHost, fun hhost => ?ownIllegal⟩,
    fun s w rest hl hs hw => ?noSuchStep,
    fun s i hl hw => ⟨fun hi => ?placedLabel, fun hi => step_withFetchWord_host hl hi⟩⟩
  case label => exact step_scheduled hl hs (fetchTurn_label_ok _ hd)
  case host => exact step_scheduled hl hs (fetchTurn_toBlock hpc hd)
  case own => exact step_scheduled hl hs (fetchTurn_own hpc (decodeHostOwn_delay hd))
  case ownAsHost =>
    exact step_scheduled hl hs (fetchTurn_own hpc ((decodeHostOwn_host hown).trans hd))
  case ownIllegal =>
    exact step_illegal hl (nextTurn_of_schedule hs) (fetchTurn_own_illegal hpc hown hhost)
  case noSuchStep =>
    simp only [step, fetch_of_live hl, nextTurn_of_schedule hs, fetchTurn_label_rejected _ hw]
  case placedLabel => exact step_withFetchWord_label hl (kindOf_eq_label_iff.2 hi) hw

end Sys2Proof.Proofs

/-! SUPPORT. The obligations on the step and on who writes what (spec R33, R81, R86, R222, R251). A step is
the move of its turn's agent, so whatever holds of moves holds of steps; with nothing scheduled the turn is
an enabled one, and an enabled turn is answered. -/

namespace Sys2Proof.Proofs

open Sys2Proof.Machine Sys2Proof.Safety Sys2Proof.Laws

/-! ### A step is a move (spec R250, R251) -/

/-- A fetched instruction that is answered is a move of the agent whose turn it is. -/
theorem moves_of_fetchTurn_instr {s t : State} {tn : Turn} {i : Instr}
    (hf : fetchTurn tn s = .instr i s) (h : exec i s = .next t) : Moves s (.instr i) t := by
  refine ⟨fun hi => ?_, drawnBit s, exec_eq_execWith i s ▸ h⟩
  rw [← fetchTurn_byHost hf hi, hf]

/-- Settles O11: the fetched turn's instruction or illegal word, in the state without that turn. -/
theorem stepIsSomeAgentsMove : Obligations.StepIsSomeAgentsMove := by
  intro s t h
  obtain ⟨hl, tn, s', hn, hturn⟩ := step_next h
  have hs' := nextTurn_state hn
  have hmove : ∃ m, Moves s' m t := by
    obtain ⟨i, hf, hexec⟩ | ⟨w, rfl, hf, ht⟩ := hturn
    · exact ⟨_, moves_of_fetchTurn_instr hf hexec⟩
    · exact ⟨.illegal w, by rw [hs']; exact hl, hf, ht⟩
  obtain ⟨m, hm⟩ := hmove
  obtain ⟨hsched, hturns⟩ := effect_schedule (effect_of_moves hm).2
  exact ⟨m, by rwa [hsched, hturns, ← hs']⟩

/-! ### A free step takes an enabled turn (spec R251, R252) -/

/-- The host at a statement is answered: an operation, `DELAY`, or the fault of an illegal word. -/
theorem fetchTurn_host_of_enabled {s : State} (he : hostEnabled s = true) :
    (∃ i, fetchTurn .host s = .instr i s ∧ byHost i = true) ∨
      ∃ w, fetchTurn .host s = .illegal w s := by
  obtain ⟨st, hst⟩ := Option.isSome_iff_exists.1 he
  cases st with
  | toBlock w =>
    cases hd : decodeHost w with
    | ok i => exact .inl ⟨i, fetchTurn_toBlock hst hd, byHost_of_decodeHost hd⟩
    | error r => exact .inr ⟨w, by simp only [fetchTurn, hst, hd]⟩
  | own w =>
    cases hd : decodeHostOwn w with
    | ok i =>
      refine .inl ⟨i, fetchTurn_own hst hd, ?_⟩
      obtain hown | hhost := decodeHostOwn_ok hd
      · obtain ⟨-, -, -, rfl⟩ := decodeOwn_ok hown
        rfl
      · exact byHost_of_decodeHost hhost
    | error r => exact .inr ⟨w, by simp only [fetchTurn, hst, hd]⟩

/-- A label turn is the step of its label. -/
theorem fetchTurn_labelTurn {i : Instr} (s : State) (hi : byHost i = false)
    (hw : i.wellFormed = true) : fetchTurn (labelTurn i) s = .instr i s :=
  fetchTurn_label_ok s (decodeLabel_encode (kindOf_eq_label_iff.2 hi) hw)

/-- An enabled turn of a live state is answered when it is the next one. -/
theorem exists_step_of_enabled {s s' : State} {tn : Turn} (hl : s.live = true)
    (hn : nextTurn s = some (tn, s')) (hmem : tn ∈ enabledTurns s) : ∃ t, step s = .next t := by
  have hs' := nextTurn_state hn
  have hl' : s'.live = true := by rw [hs']; exact hl
  have hmem' : tn ∈ enabledTurns s' := by rw [hs']; exact hmem
  have hinstr {i : Instr} (hf : fetchTurn tn s' = .instr i s') (h : ∃ t, exec i s' = .next t) :
      ∃ t, step s = .next t := by rwa [step_instr hl hn hf]
  rw [mem_enabledTurns] at hmem'
  obtain ⟨rfl, he⟩ | ⟨rfl, he⟩ | ⟨rfl, he⟩ | ⟨rfl, he⟩ | ⟨i, rfl, he⟩ := hmem'
  · obtain ⟨i, hf, hi⟩ | ⟨w, hf⟩ := fetchTurn_host_of_enabled he
    · exact hinstr hf (exists_exec_of_byHost hi hl')
    · exact ⟨_, step_illegal hl hn hf⟩
  · exact hinstr (fetchTurn_labelTurn _ rfl rfl) (exists_exec_tick_iff.2 ⟨hl', he⟩)
  · exact hinstr (fetchTurn_labelTurn _ rfl rfl) (exists_exec_servicePb_iff.2 ⟨hl', he⟩)
  · exact hinstr (fetchTurn_labelTurn _ rfl rfl) (exists_exec_serviceCm_iff.2 ⟨hl', he⟩)
  · exact hinstr (fetchTurn_labelTurn _ rfl (decide_eq_true (chOf_ne_three i)))
      (exists_exec_latch_iff.2 ⟨hl', i, rfl, he⟩)

/-- With nothing scheduled a live state's step is answered exactly where some turn is enabled. -/
theorem exists_step_iff_exists_enabled {s : State} (hl : s.live = true) (hs : s.schedule = []) :
    (∃ t, step s = .next t) ↔ ∃ tn, tn ∈ enabledTurns s := by
  obtain ⟨hnone, hn⟩ | ⟨tn, s', hmem, hn, -⟩ := nextTurn_free hs
  · simp [hnone, step_ended hl hn]
  · exact iff_of_true (exists_step_of_enabled hl hn hmem) ⟨tn, hmem⟩

/-- Where no turn is enabled the run ends (spec R252). -/
theorem step_of_no_next {s : State} (hl : s.live = true) (hs : s.schedule = [])
    (hno : ¬ ∃ t, step s = .next t) : step s = .fault .runEnded := by
  obtain ⟨-, hn⟩ | ⟨tn, s', hmem, hn, -⟩ := nextTurn_free hs
  · exact step_ended hl hn
  · exact absurd (exists_step_of_enabled hl hn hmem) hno

/-- Settles O12: the enabled turns are the rows of spec R103, and a record stops the fetch. -/
theorem freeStepTakesAnEnabledMove : Obligations.FreeStepTakesAnEnabledMove := by
  refine ⟨fun s hl hs => ⟨?enabled, step_of_no_next hl hs⟩,
    fun s => ⟨fun c w hf => ?fault, fun r w hf hr => ?refusal⟩⟩
  case enabled =>
    rw [exists_step_iff_exists_enabled hl hs]
    simp only [mem_enabledTurns, exists_or, exists_eq_left]
    rw [exists_comm]
    simp only [exists_eq_left]
  case fault => simp only [step, fetch, hf]
  case refusal => simp only [step, fetch, hf, hr]

/-! ### Who writes what (spec R81) -/

/-- A host move writes no `ACT`, flag or `ESTATE`. -/
theorem effect_isHost {s t : State} {m : Move} (h : Effect s m t) (hm : m.isHost = true) :
    t.act = s.act ∧ t.status = s.status ∧ t.estate = s.estate := by
  cases h with
  | tick | servicePb | serviceCm | latch => cases hm
  | _ => exact ⟨rfl, rfl, rfl⟩

/-- A move of another agent writes nothing of the host's. -/
theorem effect_not_isHost {s t : State} {m : Move} (h : Effect s m t) (hm : m.isHost = false) :
    t.period = s.period ∧ t.configured = s.configured ∧ t.ctrl = s.ctrl ∧ t.ccr = s.ccr ∧
      t.pc = s.pc ∧ t.rd = s.rd ∧ t.fault = s.fault ∧ t.refused = s.refused := by
  cases h with
  | tick => simp [tick_frame]
  | servicePb => simp [assertEdge_eq]
  | serviceCm => simp [deassertEdge_eq]
  | latch => simp [latch_frame]
  | _ => cases hm

/-- Only its own service clears a flag (spec R236). -/
theorem pbf_kept {s t : State} {m : Move} (h : Effect s m t) (hno : m ≠ .instr .servicePb)
    (hs : s.pbf = true) : t.pbf = true := by
  by_contra ht
  exact hno ((effect_pbf_changes h).1 hs (Bool.eq_false_iff.2 ht))

theorem cmf_kept {s t : State} {m : Move} (h : Effect s m t) (hno : m ≠ .instr .serviceCm)
    (hs : s.cmf = true) : t.cmf = true := by
  by_contra ht
  exact hno ((effect_cmf_changes h).1 hs (Bool.eq_false_iff.2 ht))

/-- Settles O26: what each agent's moves leave unchanged, and the flags' two directions. -/
theorem agentsWriteDisjointParts : Obligations.AgentsWriteDisjointParts := by
  intro s t m hmove
  have h := (effect_of_moves hmove).2
  refine ⟨fun hm => ?host, effect_not_isHost h, fun hm => ?timer, fun hm => ?services⟩
  case host =>
    obtain ⟨hact, hstatus, hestate⟩ := effect_isHost h hm
    refine ⟨hact, hstatus, hestate, fun hcnt => ?_⟩
    obtain ⟨rfl, -⟩ | ⟨-, hconfigure, -⟩ | ⟨-, hkept⟩ := effect_cnt h
    · cases hm
    · exact hconfigure
    · exact absurd hkept hcnt
  case timer =>
    have hnoPb : m ≠ .instr .servicePb := by rintro rfl; simp at hm
    have hnoCm : m ≠ .instr .serviceCm := by rintro rfl; simp at hm
    refine ⟨?_, pbf_kept h hnoPb, cmf_kept h hnoCm⟩
    obtain ⟨hpb, -⟩ | ⟨hcm, -⟩ | ⟨-, -, hkept⟩ := effect_estate h
    · exact absurd hpb hnoPb
    · exact absurd hcm hnoCm
    · exact hkept
  case services =>
    cases h with
    | servicePb => simp [assertEdge_eq, State.pbf, State.cmf]
    | serviceCm => simp [deassertEdge_eq, State.pbf, State.cmf]
    | _ => simp at hm

/-- Settles O29: only a first `CONFIGURE` writes `PERIOD`, together with `CONFIGURED`. -/
theorem periodIsWrittenOnce : Obligations.PeriodIsWrittenOnce := by
  intro s t m hmove
  obtain ⟨-, hkept⟩ | ⟨p, hp, rfl, hc, rfl⟩ := effect_configured_period (effect_of_moves hmove).2
  · exact ⟨fun _ => hkept, fun hne => absurd hkept hne⟩
  · exact ⟨fun hc' => absurd (hc.symm.trans hc') nofun, fun _ => ⟨rfl, hp, rfl⟩⟩

/-- Settles O31: a changed `ACT[j]` is a wrap's or its own `LATCH`'s, and each loads `CCR[j]`. -/
theorem activeValueFollowsLatchOrWrap : Obligations.ActiveValueFollowsLatchOrWrap := by
  refine ⟨fun s t m j hmove hne => ?changes, fun s t j b => ⟨fun h => ?latch, fun h hwrap => ?wrap⟩⟩
  case changes =>
    obtain ⟨rfl, hact⟩ | ⟨i, rfl, hact⟩ | ⟨-, hact⟩ := effect_act (effect_of_moves hmove).2
    · split at hact
      next hwrap => exact ⟨by rw [hact], .inr ⟨rfl, hwrap⟩⟩
      next => exact absurd (by rw [hact]) hne
    · by_cases hj : j = i
      · subst hj
        exact ⟨by rw [hact, get_set_same], .inl rfl⟩
      · exact absurd (by rw [hact, get_set_other _ _ _ _ hj]) hne
    · exact absurd (by rw [hact]) hne
  case latch =>
    obtain ⟨-, -, rfl⟩ := latchWith_chOf_next.1 h
    exact (latch_loads b j s).2.1
  case wrap =>
    obtain ⟨-, -, rfl⟩ := execTick_next.1 h
    obtain ⟨-, hact, -⟩ := tick_wrap hwrap
    rw [hact]

/-! ### The host's sequence of operations (spec R222) -/

/-- A host move that records nothing moves the host to its next position. -/
theorem effect_pc {s t : State} {m : Move} (h : Effect s m t) (hm : m.isHost = true)
    (ht : t.live = true) : t.pc = s.pc.next := by
  cases h with
  | configure | setDuty | writeCtrl | readCnt | delay => rfl
  | tick | servicePb | serviceCm | latch => cases hm
  | illegal | badPeriod | badChannel | notConfigured => simp at ht
  | reconfigure => simp [State.live] at ht

/-- The move a fetched turn stands for. -/
def fetchedMove : Fetched → Option Move
  | .instr i _ => some (.instr i)
  | .illegal w _ => some (.illegal w)
  | .stop _ | .refuse _ => none

/-- What the host's turn stands for is a function of the host's position. -/
theorem fetchedMove_host_congr {s s' : State} (hpc : s.pc = s'.pc) :
    fetchedMove (fetchTurn .host s) = fetchedMove (fetchTurn .host s') := by
  simp only [fetchTurn, hpc]
  split
  · rfl
  · split <;> rfl
  · split <;> rfl

/-- A host move is the one of the host's turn. -/
theorem fetchedMove_of_moves {s t : State} {m : Move} (h : Moves s m t) (hm : m.isHost = true) :
    fetchedMove (fetchTurn .host s) = some m := by
  cases m with
  | instr i =>
    obtain ⟨hf, -⟩ := h
    rw [hf hm, fetchedMove]
  | illegal w =>
    obtain ⟨-, hf, -⟩ := h
    rw [hf, fetchedMove]

/-- Settles O58: the move is a function of the position, which the host's moves alone advance. -/
theorem hostSequenceIsFixed : Obligations.HostSequenceIsFixed := by
  refine ⟨fun s t m hmove => ⟨fun hm => ?kept, fun hm ht => ?next⟩,
    fun s t s' t' m m' h h' hm hm' hpc => ?same⟩
  case kept =>
    obtain ⟨-, -, -, -, hpc, -⟩ := effect_not_isHost (effect_of_moves hmove).2 hm
    exact hpc
  case next => exact effect_pc (effect_of_moves hmove).2 hm ht
  case same =>
    have heq := fetchedMove_host_congr hpc
    rw [fetchedMove_of_moves h hm, fetchedMove_of_moves h' hm'] at heq
    exact Option.some.inj heq

end Sys2Proof.Proofs

/-! SUPPORT. The obligations on the invariants (spec R54, R129, R132, R217 to R220): each invariant is kept by
everything a move can do, hence by every step and in every state reached from reset. -/

namespace Sys2Proof.Proofs

open Sys2Proof.Machine Sys2Proof.Safety Sys2Proof.Laws

/-! ### The block's invariant (spec R54) -/

/-- The invariant reads four registers. -/
theorem blockInv_congr {s t : State} (hperiod : t.period = s.period) (hcnt : t.cnt = s.cnt)
    (hctrl : t.ctrl = s.ctrl) (hconf : t.configured = s.configured) (h : BlockInv s) : BlockInv t := by
  simpa only [BlockInv, State.cen, hperiod, hcnt, hctrl, hconf] using h

/-- Every move keeps the block's invariant. -/
theorem blockInv_of_effect {s t : State} {m : Move} (h : Effect s m t) (hinv : BlockInv s) :
    BlockInv t := by
  cases h with
  | configure p hp hc =>
    exact ⟨fun _ => ⟨hp, (BitVec.pos_iff_ne_zero p).2 hp⟩, nofun⟩
  | writeCtrl m hm =>
    refine ⟨hinv.1, fun hc => ?_⟩
    obtain ⟨hperiod, hcnt, -⟩ := hinv.2 hc
    refine ⟨hperiod, hcnt, Bool.eq_false_iff.2 fun hcen => ?_⟩
    exact absurd (hc.symm.trans (hm hcen)) nofun
  | tick he =>
    obtain ⟨hperiod, -, -, -, hconf, -⟩ := tick_frame s
    rw [tickEnabled, Bool.and_eq_true] at he
    obtain ⟨hp, hlt⟩ := hinv.1 he.1
    refine ⟨fun _ => ?_, fun hc => ?_⟩
    · rw [hperiod]
      exact ⟨hp, tick_cnt_lt hlt⟩
    · rw [hconf, he.1] at hc
      cases hc
  | latch b i he =>
    obtain ⟨-, hperiod, hcnt, hctrl, -, -, hconf, -⟩ := latch_frame b i s
    exact blockInv_congr hperiod hcnt hctrl hconf hinv
  | servicePb b he =>
    rw [assertEdge_eq]
    exact hinv
  | serviceCm b he =>
    rw [deassertEdge_eq]
    exact hinv
  | illegal | badPeriod | reconfigure | setDuty | badChannel | notConfigured | readCnt | delay =>
    exact hinv

theorem blockInv_of_moves {s t : State} {m : Move} (hinv : BlockInv s) (h : Moves s m t) :
    BlockInv t :=
  blockInv_of_effect (effect_of_moves h).2 hinv

/-- Settles O34: a step is a move, and the invariant reads no schedule. -/
theorem stepKeepsTheInvariant : Obligations.StepKeepsTheInvariant := by
  intro s t hinv h
  obtain ⟨m, hm⟩ := stepIsSomeAgentsMove s t h
  exact blockInv_of_effect (effect_of_moves hm).2 hinv

theorem blockInv_reset (pc0 : HostPc) : BlockInv { State.reset with pc := pc0 } :=
  ⟨nofun, fun _ => ⟨rfl, rfl, reset_ctrl_bits.1⟩⟩

/-- What holds at reset and is kept by every move holds in every reached state. -/
theorem reachable_induction {pc0 : HostPc} {P : State → Prop}
    (hreset : P { State.reset with pc := pc0 })
    (hmove : ∀ {s t : State} {m : Move}, P s → Moves s m t → P t) {s : State}
    (h : Reachable pc0 s) : P s := by
  induction h with
  | reset => exact hreset
  | move _ hm ih => exact hmove ih hm

/-- Settles O35: the block's invariant in every reached state, and `SWOUT` by its definition. -/
theorem reachableStatesMeetTheInvariants : Obligations.ReachableStatesMeetTheInvariants := by
  intro pc0 s h
  obtain ⟨hset, hunset⟩ := reachable_induction (P := BlockInv) (blockInv_reset pc0) blockInv_of_moves h
  refine ⟨fun hc => ?_, hunset, swout_eq_true_iff⟩
  obtain ⟨hp, hlt⟩ := hset hc
  exact ⟨Nat.one_le_iff_ne_zero.2 fun h0 => hp (BitVec.eq_of_toNat_eq h0),
    Nat.le_of_lt_succ s.period.isLt, BitVec.lt_def.1 hlt⟩

/-! ### The counter's arithmetic (spec R129, R132) -/

/-- The last counter value of a period, as a number. -/
theorem toNat_last {p : Val} (hp : p ≠ 0#16) : (p - 1#16).toNat = p.toNat - 1 ∧ 1 ≤ p.toNat := by
  bv_omega

theorem cnt_eq_last_iff {s : State} (hinv : BlockInv s) (hc : s.configured = true) :
    s.cnt = s.period - 1#16 ↔ s.cnt.toNat + 1 = s.period.toNat := by
  obtain ⟨hp, hlt⟩ := hinv.1 hc
  bv_omega

/-- Below the last value the counter counts up without overflow. -/
theorem toNat_cnt_add_one {s : State} (hinv : BlockInv s) (hc : s.configured = true)
    (hne : s.cnt ≠ s.period - 1#16) :
    (s.cnt + 1#16).toNat = s.cnt.toNat + 1 ∧ s.cnt.toNat + 1 < s.period.toNat := by
  obtain ⟨hp, hlt⟩ := hinv.1 hc
  bv_omega

/-- A `TICK` counts modulo the period. -/
theorem toNat_tick_cnt {s : State} (hinv : BlockInv s) (hc : s.configured = true) :
    (compareMatch (count s)).cnt.toNat = (s.cnt.toNat + 1) % s.period.toNat := by
  rw [tick_cnt]
  split
  next hwrap => rw [(cnt_eq_last_iff hinv hc).1 hwrap, Nat.mod_self, BitVec.toNat_ofNat, Nat.zero_mod]
  next hup =>
    obtain ⟨hcnt, hlt⟩ := toNat_cnt_add_one hinv hc hup
    rw [hcnt, Nat.mod_eq_of_lt hlt]

/-- Settles O36: the arithmetic below the period, and `TICK`'s counter as a number. -/
theorem counterNeverOverflows : Obligations.CounterNeverOverflows := by
  intro s hinv hc
  obtain ⟨hlast, hpos⟩ := toNat_last (hinv.1 hc).1
  refine ⟨hlast, hpos, toNat_cnt_add_one hinv hc, fun t h => ?_⟩
  obtain ⟨-, -, rfl⟩ := execTick_next.1 h
  exact toNat_tick_cnt hinv hc

/-- Settles O37: the only counter value below 1 is 0, which is the last one. -/
theorem periodOne : Obligations.PeriodOne := by
  intro s hinv hc hp
  obtain ⟨-, hlt⟩ := hinv.1 hc
  have hcnt : s.cnt = 0#16 := by
    rw [hp] at hlt
    bv_omega
  have hwrap : s.cnt = s.period - 1#16 := by rw [hcnt, hp]; rfl
  refine ⟨hcnt, fun hl hcen => ⟨_, exec_tick_of_enabled hl hc hcen⟩, fun t h => ?_⟩
  obtain ⟨-, -, rfl⟩ := execTick_next.1 h
  obtain ⟨hcnt', hact, hpbf⟩ := tick_wrap hwrap
  refine ⟨hcnt', hpbf, hact, fun hcmf => ?_⟩
  rw [tick_cmf, hcmf, Bool.false_or, decide_eq_true_eq, hcnt', eq_comm]

/-! ### The Fade Sequencer's invariant (spec R217, R219, R220) -/

theorem fadeInv_reset : FadeInv State.reset := ⟨rfl, rfl⟩

/-- Settles O8: both invariants evaluated at reset. -/
theorem invariantsAtReset : Obligations.InvariantsAtReset :=
  ⟨blockInv_reset _, fadeInv_reset, rfl, rfl, by decide, by decide, rfl⟩

/-- The invariant reads the host's position and four registers, all of them the host's. -/
theorem fadeInv_congr {s t : State} (hpc : t.pc = s.pc) (hconf : t.configured = s.configured)
    (hperiod : t.period = s.period) (hctrl : t.ctrl = s.ctrl) (hccr : t.ccr = s.ccr)
    (h : FadeInv s) : FadeInv t := by
  have hduty (c : Colour) : duty c t = duty c s := by rw [duty, duty, hccr]
  simpa only [FadeInv, Duties, hduty, hpc, hconf, hperiod, hctrl, hccr] using h

/-- The duty values at a position of a pair-fade, before the sub-step's statement (spec R217). -/
def RunDuties (k : Pair) (i : Nat) : SubStep → State → Prop
  | .s0, s =>
    if i = 0 then Duties k fadeP 0 0 s ∨ (k = .p0 ∧ Duties k 0 0 0 s)
    else Duties k (fadeP - (i - 1)) (i - 1) 0 s
  | .s1, s => Duties k (fadeP - i) (i - 1) 0 s
  | .s2, s => Duties k (fadeP - i) i 0 s

theorem fadeInv_init0_iff {s : State} (hpc : s.pc = .fade .init0) : FadeInv s ↔
    s.configured = false ∧ s.ccr = { u0 := 0#16, u1 := 0#16, u2 := 0#16 } := by
  rw [FadeInv, hpc]

theorem fadeInv_init1_iff {s : State} (hpc : s.pc = .fade .init1) : FadeInv s ↔
    s.configured = true ∧ s.period = Config.fade.period ∧
      s.ccr = { u0 := 0#16, u1 := 0#16, u2 := 0#16 } := by
  rw [FadeInv, hpc]

theorem fadeInv_run_iff {s : State} {k : Pair} {i : Nat} {sub : SubStep}
    (hpc : s.pc = .fade (.run k i sub)) : FadeInv s ↔
    s.configured = true ∧ s.period = Config.fade.period ∧ s.ctrl = 0xF#4 ∧ i ≤ fadeP ∧
      RunDuties k i sub s := by
  rw [FadeInv, hpc]
  cases sub <;> rfl

/-- Under the invariant the host is at a position of the Fade Sequencer. -/
theorem fadeInv_pc {s : State} (h : FadeInv s) : ∃ p, s.pc = .fade p := by
  unfold FadeInv at h
  split at h
  · exact h.elim
  all_goals exact ⟨_, ‹_›⟩

/-- The state after the host has set the duty value of a colour. -/
def withDuty (c : Colour) (v : Val) (s : State) : State :=
  hostDone { s with ccr := s.ccr.set (Config.fade.chmap c) v }

/-- Setting one colour's duty value leaves the others': `CHMAP` is one to one (spec R12). -/
theorem duty_withDuty (c c' : Colour) (v : Val) (s : State) :
    duty c' (withDuty c v s) = if c' = c then v.toNat else duty c' s := by
  simp only [duty, withDuty, hostDone_ccr, fade_chmap, get_set, chmap_injective.eq_iff]
  split <;> rfl

theorem exec_setColour {s : State} (c : Colour) (v : Val) (hl : s.live = true) :
    exec (setColour Config.fade.chmap c v) s = .next (withDuty c v s) :=
  exec_setDuty_chOf _ v hl

/-- Setting the source's duty value keeps the pair's other two. -/
theorem duties_withDuty_source {k : Pair} {b c : Nat} {v : Val} {s : State}
    (ht : duty k.target s = b) (ho : duty (third k) s = c) :
    Duties k v.toNat b c (withDuty k.source v s) := by
  refine ⟨?_, ?_, ?_⟩ <;> rw [duty_withDuty]
  · rw [if_pos rfl]
  · rwa [if_neg (by cases k <;> decide)]
  · rwa [if_neg (by cases k <;> decide)]

/-- Setting the target's duty value keeps the pair's other two. -/
theorem duties_withDuty_target {k : Pair} {a c : Nat} {v : Val} {s : State}
    (hs : duty k.source s = a) (ho : duty (third k) s = c) :
    Duties k a v.toNat c (withDuty k.target v s) := by
  refine ⟨?_, ?_, ?_⟩ <;> rw [duty_withDuty]
  · rwa [if_neg (by cases k <;> decide)]
  · rw [if_pos rfl]
  · rwa [if_neg (by cases k <;> decide)]

/-- The next pair fades from this one's target to its third colour (spec R212, R217). -/
theorem duties_succ {k : Pair} {a b c : Nat} {s : State} (h : Duties k a b c s) :
    Duties k.succ b c a s := by
  obtain ⟨hs, ht, ho⟩ := h
  cases k <;> exact ⟨ht, ho, hs⟩

/-- Before the first statement of step `i`, the target is still at step `i - 1`. -/
theorem target_of_runDuties_s0 {k : Pair} {i : Nat} {s : State} (h : RunDuties k i .s0 s) :
    duty k.target s = i - 1 ∧ duty (third k) s = 0 := by
  rw [RunDuties] at h
  split at h
  next h0 =>
    subst h0
    obtain ⟨-, hkept⟩ | ⟨-, -, hkept⟩ := h <;> exact hkept
  next =>
    obtain ⟨-, hkept⟩ := h
    exact hkept

/-- `DELAY` ends a step: the next one starts from its duty values, and after step `P` the next pair
does. -/
theorem runDuties_of_s2 {k : Pair} {i : Nat} {s : State} (h : RunDuties k i .s2 s) :
    (i < fadeP → RunDuties k (i + 1) .s0 s) ∧ (i = fadeP → RunDuties k.succ 0 .s0 s) := by
  refine ⟨fun _ => ?_, fun hi => .inl ?_⟩
  · rw [RunDuties, if_neg (Nat.succ_ne_zero i), Nat.add_sub_cancel]
    exact h
  · rw [RunDuties, hi, Nat.sub_self] at h
    exact duties_succ h

/-- The two statements of the initialisation keep the invariant. -/
theorem fadeInv_of_exec_init0 {s t : State} (hpc : s.pc = .fade .init0) (hinv : FadeInv s)
    (hl : s.live = true) (h : exec (FadePc.init0.instr Config.fade) s = .next t) :
    FadeInv t ∧ t.live = true := by
  obtain ⟨hc, hccr⟩ := (fadeInv_init0_iff hpc).1 hinv
  obtain rfl := next_eq.1 ((exec_configure_of_not_configured hl hc fade_period_ne_zero).symm.trans h)
  have hpc' : (hostDone (startCounter Config.fade.period s)).pc = .fade .init1 := by
    rw [hostDone_pc, startCounter_pc, hpc]
    rfl
  exact ⟨(fadeInv_init1_iff hpc').2 ⟨rfl, rfl, hccr⟩, hl⟩

theorem fadeInv_of_exec_init1 {s t : State} (hpc : s.pc = .fade .init1) (hinv : FadeInv s)
    (hl : s.live = true) (h : exec (FadePc.init1.instr Config.fade) s = .next t) :
    FadeInv t ∧ t.live = true := by
  obtain ⟨hc, hperiod, hccr⟩ := (fadeInv_init1_iff hpc).1 hinv
  obtain rfl := next_eq.1 ((exec_writeCtrl_of_allowed hl fun _ => hc).symm.trans h)
  have hpc' : (hostDone { s with ctrl := 0xF#4 }).pc = .fade (.run .p0 0 .s0) := by
    rw [hostDone_pc, hpc]
    rfl
  have hduty (c : Colour) : duty c (hostDone { s with ctrl := 0xF#4 }) = 0 := by
    rw [duty, hostDone_ccr, hccr, get_constant_bank, BitVec.toNat_ofNat, Nat.zero_mod]
  exact ⟨(fadeInv_run_iff hpc').2 ⟨hc, hperiod, rfl, Nat.zero_le _,
    .inr ⟨rfl, hduty _, hduty _, hduty _⟩⟩, hl⟩

/-- The three statements of a step keep the invariant. -/
theorem fadeInv_of_exec_run {s t : State} {k : Pair} {i : Nat} {sub : SubStep}
    (hpc : s.pc = .fade (.run k i sub)) (hinv : FadeInv s) (hl : s.live = true)
    (h : exec ((FadePc.run k i sub).instr Config.fade) s = .next t) :
    FadeInv t ∧ t.live = true := by
  obtain ⟨hc, hperiod, hctrl, hi, hduties⟩ := (fadeInv_run_iff hpc).1 hinv
  cases sub with
  | s0 =>
    obtain rfl := next_eq.1 ((exec_setColour _ _ hl).symm.trans h)
    obtain ⟨htarget, hthird⟩ := target_of_runDuties_s0 hduties
    have hpc' : (withDuty k.source (Config.fade.period - BitVec.ofNat 16 i) s).pc =
        .fade (.run k i .s1) := by
      rw [withDuty, hostDone_pc, hpc]
      rfl
    have hduties' := duties_withDuty_source (v := Config.fade.period - BitVec.ofNat 16 i) htarget hthird
    rw [toNat_source_operand hi] at hduties'
    exact ⟨(fadeInv_run_iff hpc').2 ⟨hc, hperiod, hctrl, hi, hduties'⟩, hl⟩
  | s1 =>
    obtain rfl := next_eq.1 ((exec_setColour _ _ hl).symm.trans h)
    obtain ⟨hsource, -, hthird⟩ := hduties
    have hpc' : (withDuty k.target (BitVec.ofNat 16 i) s).pc = .fade (.run k i .s2) := by
      rw [withDuty, hostDone_pc, hpc]
      rfl
    have hduties' := duties_withDuty_target (v := BitVec.ofNat 16 i) hsource hthird
    rw [toNat_target_operand hi] at hduties'
    exact ⟨(fadeInv_run_iff hpc').2 ⟨hc, hperiod, hctrl, hi, hduties'⟩, hl⟩
  | s2 =>
    obtain ⟨-, rfl⟩ := (execDelay_next (n := Config.fade.delay)).1 h
    obtain ⟨hstep, hpair⟩ := runDuties_of_s2 hduties
    refine ⟨?_, hl⟩
    by_cases hlt : i < fadeP
    · have hpc' : (hostDone s).pc = .fade (.run k (i + 1) .s0) := by
        rw [hostDone_pc, hpc]
        exact congrArg HostPc.fade (if_pos hlt)
      exact (fadeInv_run_iff hpc').2 ⟨hc, hperiod, hctrl, hlt, hstep hlt⟩
    · have hpc' : (hostDone s).pc = .fade (.run k.succ 0 .s0) := by
        rw [hostDone_pc, hpc]
        exact congrArg HostPc.fade (if_neg hlt)
      exact (fadeInv_run_iff hpc').2 ⟨hc, hperiod, hctrl, Nat.zero_le _, hpair (by omega)⟩

/-- Each statement of the program keeps the invariant and records nothing. -/
theorem fadeInv_of_exec {s t : State} {p : FadePc} (hpc : s.pc = .fade p) (hinv : FadeInv s)
    (h : exec (p.instr Config.fade) s = .next t) : FadeInv t ∧ t.live = true := by
  have hl : s.live = true := (effect_of_exec h).1
  cases p with
  | init0 => exact fadeInv_of_exec_init0 hpc hinv hl h
  | init1 => exact fadeInv_of_exec_init1 hpc hinv hl h
  | run k i sub => exact fadeInv_of_exec_run hpc hinv hl h

/-- A host move at a position of the Fade Sequencer is that position's statement. -/
theorem move_eq_of_fade {s t : State} {m : Move} {p : FadePc} (hpc : s.pc = .fade p)
    (h : Moves s m t) (hm : m.isHost = true) : m = .instr (p.instr Config.fade) := by
  have hf := fetchedMove_of_moves h hm
  rw [fetchTurn_fade hpc, fetchedMove] at hf
  exact (Option.some.inj hf).symm

/-- The meaning of a host operation draws nothing. -/
theorem execWith_of_byHost (b : Bool) {i : Instr} (hi : byHost i = true) (s : State) :
    execWith b i s = exec i s := by
  cases i with
  | configure | setDuty | writeCtrl | readCnt | delay => rfl
  | tick | servicePb | serviceCm | latch => cases hi

/-- Every move of every agent keeps the Fade Sequencer's invariant and records nothing. -/
theorem fadeInv_of_moves {s t : State} {m : Move} (hinv : FadeInv s) (h : Moves s m t) :
    FadeInv t ∧ t.live = true := by
  obtain ⟨hl, heff⟩ := effect_of_moves h
  cases hm : m.isHost with
  | false =>
    obtain ⟨hperiod, hconf, hctrl, hccr, hpc, -, hrecords⟩ := effect_not_isHost heff hm
    exact ⟨fadeInv_congr hpc hconf hperiod hctrl hccr hinv, (live_congr hrecords).trans hl⟩
  | true =>
    obtain ⟨p, hpc⟩ := fadeInv_pc hinv
    obtain rfl := move_eq_of_fade hpc h hm
    obtain ⟨-, b, hexec⟩ := h
    rw [execWith_of_byHost b hm] at hexec
    exact fadeInv_of_exec hpc hinv hexec

theorem fadeInv_of_step {s t : State} (hinv : FadeInv s) (h : step s = .next t) :
    FadeInv t ∧ t.live = true := by
  obtain ⟨m, hm⟩ := stepIsSomeAgentsMove s t h
  exact fadeInv_of_moves (s := { s with schedule := t.schedule, turns := t.turns }) hinv hm

/-- The duty values after the two writes of a step (spec R217, R219). -/
theorem duties_of_fadeInv_s2 {s : State} {k : Pair} {i : Nat} (hinv : FadeInv s)
    (hpc : s.pc = .fade (.run k i .s2)) : i ≤ fadeP ∧ Duties k (fadeP - i) i 0 s := by
  obtain ⟨-, -, -, hi, hduties⟩ := (fadeInv_run_iff hpc).1 hinv
  exact ⟨hi, hduties⟩

/-- Between the two writes of a step the sum is one short of the period, or the period (spec R218). -/
theorem sum_of_fadeInv_s1 {s : State} {k : Pair} {i : Nat} (hinv : FadeInv s)
    (hpc : s.pc = .fade (.run k i .s1)) :
    duty k.source s + duty k.target s = fadeP - 1 ∨ duty k.source s + duty k.target s = fadeP := by
  obtain ⟨-, -, -, hi, hsource, htarget, -⟩ := (fadeInv_run_iff hpc).1 hinv
  rw [hsource, htarget]
  omega

/-- Settles O59: the invariant under moves and steps, and in every reached state the duty values it
gives. -/
theorem fadeDutyValues : Obligations.FadeDutyValues := by
  refine ⟨fun _ _ _ => fadeInv_of_moves, fun _ _ hinv h => (fadeInv_of_step hinv h).1,
    fun s hreach k i => ?_⟩
  have hinv : FadeInv s :=
    reachable_induction (P := FadeInv) fadeInv_reset (fun h hm => (fadeInv_of_moves h hm).1) hreach
  refine ⟨fun hpc => ?written, sum_of_fadeInv_s1 hinv, fun hpc => ?cycle⟩
  case written =>
    obtain ⟨hi, hsource, htarget, hthird⟩ := duties_of_fadeInv_s2 hinv hpc
    exact ⟨hi, hsource, htarget, hthird, by omega, by omega, by omega⟩
  case cycle => exact (duties_of_fadeInv_s2 hinv hpc).2

/-! ### The machine with the Fade Sequencer never stops (spec R213, R252) -/

/-- A free step schedules nothing. -/
theorem schedule_of_free_step {s t : State} (hs : s.schedule = []) (h : step s = .next t) :
    t.schedule = [] := by
  obtain ⟨-, tn, s', hn, hturn⟩ := step_next h
  have hs' : s'.schedule = [] := by
    obtain ⟨-, hnone⟩ | ⟨tn₀, s₀, -, hn₀, hs₀⟩ := nextTurn_free hs
    · rw [hnone] at hn
      cases hn
    · rw [hn₀] at hn
      cases hn
      exact hs₀
  obtain ⟨i, -, hexec⟩ | ⟨w, -, -, rfl⟩ := hturn
  · rw [(effect_schedule (effect_of_exec hexec).2).1, hs']
  · exact hs'

/-- Settles O60: the host's turn is always enabled, and the step taken keeps what moves keep. -/
theorem fadeSequencerRunsForever : Obligations.FadeSequencerRunsForever := by
  intro s hblock hfade hl hs
  have hhost : hostEnabled s = true := by
    obtain ⟨p, hpc⟩ := fadeInv_pc hfade
    rw [hostEnabled_iff, hpc]
    exact nofun
  obtain ⟨t, ht⟩ : ∃ t, step s = .next t :=
    (exists_step_iff_exists_enabled hl hs).2 ⟨.host, (mem_enabledTurns s _).2 (.inl ⟨rfl, hhost⟩)⟩
  obtain ⟨hfade', hl'⟩ := fadeInv_of_step hfade ht
  exact ⟨t, ht, stepKeepsTheInvariant s t hblock ht, hfade', hl', schedule_of_free_step hs ht⟩

end Sys2Proof.Proofs

/-! SUPPORT. The obligations on the hardware outputs and on single services (spec R153, R154, R178, R181,
R182, R185): an output is the comparison of the counter with its active value, and a service compares the
counter with the duty value it draws. -/

namespace Sys2Proof.Proofs

open Sys2Proof.Machine Sys2Proof.Safety Sys2Proof.Laws

/-! ### The hardware outputs (spec R153, R154) -/

theorem out_eq_false_iff {i : Chan} {s : State} :
    out i s = false ↔ (s.act.get i).toNat ≤ s.cnt.toNat := by
  rw [← Bool.not_eq_true, out_eq_true_iff, Nat.not_lt]

/-- Settles O42: nothing is below 0, and the counter is below the period. -/
theorem boundaryDutyValues : Obligations.BoundaryDutyValues := by
  refine fun s i _ => ⟨fun hact => ?zero, fun hinv hc hle => ?period⟩
  case zero =>
    rw [out_eq_false_iff, hact]
    exact Nat.zero_le _
  case period =>
    obtain ⟨-, hlt⟩ := hinv.1 hc
    rw [out_eq_true_iff]
    exact Nat.lt_of_lt_of_le (BitVec.lt_def.1 hlt) (BitVec.le_def.1 hle)

/-- The counter changes by a `TICK` alone (spec R35): a first `CONFIGURE` finds it at 0. -/
theorem effect_cnt_of_blockInv {s t : State} {m : Move} (h : Effect s m t) (hinv : BlockInv s) :
    m = .instr .tick ∨ t.cnt = s.cnt := by
  obtain ⟨hm, -⟩ | ⟨hc, -, hzero⟩ | ⟨-, hkept⟩ := effect_cnt h
  · exact .inl hm
  · obtain ⟨-, hcnt, -⟩ := hinv.2 hc
    exact .inr (hzero.trans hcnt.symm)
  · exact .inr hkept

/-- A `TICK` wraps at the last counter value and counts up below it, as numbers. -/
theorem toNat_tick_cnt_cases {s : State} (hinv : BlockInv s) (hc : s.configured = true) :
    (s.cnt.toNat + 1 = s.period.toNat ∧ (compareMatch (count s)).cnt.toNat = 0) ∨
      (s.cnt.toNat + 1 < s.period.toNat ∧
        (compareMatch (count s)).cnt.toNat = s.cnt.toNat + 1) := by
  obtain ⟨-, hlt⟩ := hinv.1 hc
  rw [toNat_tick_cnt hinv hc]
  obtain heq | hup := Nat.eq_or_lt_of_le (Nat.succ_le_of_lt (BitVec.lt_def.1 hlt))
  · exact .inl ⟨heq, by rw [← heq, Nat.mod_self]⟩
  · exact .inr ⟨hup, Nat.mod_eq_of_lt hup⟩

/-- Where a `TICK` moves the counter across a value between 0 and the period (spec R154). -/
theorem tick_crosses {s : State} {d : Val} (hinv : BlockInv s) (hc : s.configured = true)
    (hpos : 0#16 < d) (hlt : d < s.period) :
    ((d ≤ s.cnt ∧ (compareMatch (count s)).cnt < d) ↔ (compareMatch (count s)).cnt = 0#16) ∧
    ((s.cnt < d ∧ d ≤ (compareMatch (count s)).cnt) ↔ (compareMatch (count s)).cnt = d) := by
  have hcases := toNat_tick_cnt_cases hinv hc
  simp only [BitVec.lt_def, BitVec.le_def, ← BitVec.toNat_inj, BitVec.toNat_ofNat,
    Nat.zero_mod] at *
  omega

/-- Settles O43: the two registers an output reads, and the counter values a `TICK` crosses. -/
theorem hardwareOutputChanges : Obligations.HardwareOutputChanges := by
  intro s t m i _ hinv hmove
  have heff := (effect_of_moves hmove).2
  refine ⟨fun hne => ?changes, fun hm hact hpos hlt => ?tick⟩
  case changes =>
    by_contra hno
    rw [not_or] at hno
    obtain ⟨htick, hlatch⟩ := hno
    refine hne (out_congr ((effect_cnt_of_blockInv heff hinv).resolve_left htick) ?_)
    by_contra hact
    obtain ⟨-, hm | ⟨hm, -⟩⟩ := activeValueFollowsLatchOrWrap.1 s t m i hmove hact
    · exact hlatch hm
    · exact htick hm
  case tick =>
    subst hm
    obtain ⟨-, b, h⟩ := hmove
    obtain ⟨-, he, rfl⟩ := execTick_next.1 h
    rw [tickEnabled, Bool.and_eq_true] at he
    simpa [out, hact] using tick_crosses hinv he.1 hpos hlt

/-! ### Single services (spec R178, R181, R182, R185) -/

theorem servicePb_estate {s t : State} {b : Bool} (h : servicePbWith b s = .next t) : t.estate =
    if s.estate = .deasserted ∧ s.cnt < drawnDuty b s then .asserted else s.estate := by
  obtain ⟨-, -, rfl⟩ := servicePbWith_next_iff.1 h
  rfl

theorem serviceCm_estate {s t : State} {b : Bool} (h : serviceCmWith b s = .next t) : t.estate =
    if s.estate = .asserted ∧ drawnDuty b s ≤ s.cnt then .deasserted else s.estate := by
  obtain ⟨-, -, rfl⟩ := serviceCmWith_next_iff.1 h
  rfl

/-- A `SERVICE_PB` leaves the pin asserted exactly where it was, or the counter is below the duty value. -/
theorem afterServicePb_asserted_iff {d : Val} {s : State} :
    (afterServicePb d s).estate = .asserted ↔ s.estate = .asserted ∨ s.cnt < d := by
  cases h : s.estate <;> simp [afterServicePb, h]

/-- A `SERVICE_CM` leaves the pin asserted exactly where it was and the counter is below the duty value. -/
theorem afterServiceCm_asserted_iff {d : Val} {s : State} :
    (afterServiceCm d s).estate = .asserted ↔ s.estate = .asserted ∧ s.cnt < d := by
  cases h : s.estate <;> simp [afterServiceCm, h]

theorem servicePb_asserted_iff {s t : State} {b : Bool} (h : servicePbWith b s = .next t) :
    t.estate = .asserted ↔ s.estate = .asserted ∨ s.cnt < drawnDuty b s := by
  obtain ⟨-, -, rfl⟩ := servicePbWith_next_iff.1 h
  exact afterServicePb_asserted_iff

theorem serviceCm_asserted_iff {s t : State} {b : Bool} (h : serviceCmWith b s = .next t) :
    t.estate = .asserted ↔ s.estate = .asserted ∧ s.cnt < drawnDuty b s := by
  obtain ⟨-, -, rfl⟩ := serviceCmWith_next_iff.1 h
  exact afterServiceCm_asserted_iff

theorem ne_asserted_iff {e : EState} : e ≠ .asserted ↔ e = .deasserted := by
  cases e <;> simp

/-- Settles O49: neither service's guard holds there. -/
theorem servicesAreIdempotent : Obligations.ServicesAreIdempotent := by
  refine fun s t b => ⟨fun hs h => ?_, fun hs h => ?_⟩
  · exact (servicePb_asserted_iff h).2 (.inl hs)
  · rw [← ne_asserted_iff, ne_eq, serviceCm_asserted_iff h, hs]
    exact fun ⟨h, _⟩ => nomatch h

/-- Bounds of both duty values are bounds of the drawn one. -/
theorem drawnDuty_bounds {s : State} (b : Bool) :
    (s.cnt < s.ccr.u2 → s.cnt < s.act.u2 → s.cnt < drawnDuty b s) ∧
    (s.ccr.u2 ≤ s.cnt → s.act.u2 ≤ s.cnt → drawnDuty b s ≤ s.cnt) := by
  rw [drawnDuty_eq_ite]
  cases b <;> simp +contextual

/-- A service whose comparison fails keeps `ESTATE`. -/
theorem servicePb_keeps {s t : State} {b : Bool} (h : servicePbWith b s = .next t)
    (hle : drawnDuty b s ≤ s.cnt) : t.estate = s.estate := by
  rw [servicePb_estate h, if_neg fun ⟨_, hlt⟩ => absurd hlt (BitVec.not_lt.2 hle)]

theorem serviceCm_keeps {s t : State} {b : Bool} (h : serviceCmWith b s = .next t)
    (hlt : s.cnt < drawnDuty b s) : t.estate = s.estate := by
  rw [serviceCm_estate h, if_neg fun ⟨_, hle⟩ => absurd hlt (BitVec.not_lt.2 hle)]

/-- Settles O52: the drawn value lies on the same side of the counter as both it is drawn from. -/
theorem everyServicedEventReattempts : Obligations.EveryServicedEventReattempts := by
  intro s t b
  obtain ⟨hbelow, habove⟩ := drawnDuty_bounds (s := s) b
  refine ⟨fun h hccr hact => ?asserts, fun h hccr hact => ?deasserts, fun h hccr hact => ?latePb,
    fun h hccr hact => ?lateCm⟩
  case asserts => exact (servicePb_asserted_iff h).2 (.inr (hbelow hccr hact))
  case deasserts =>
    rw [← ne_asserted_iff, ne_eq, serviceCm_asserted_iff h]
    exact fun ⟨_, hlt⟩ => absurd hlt (BitVec.not_lt.2 (habove hccr hact))
  case latePb => exact servicePb_keeps h (habove hccr hact)
  case lateCm => exact serviceCm_keeps h (hbelow hccr hact)

/-- A service that changes `ESTATE` passed its comparison. -/
theorem lt_of_servicePb_changes {s t : State} {b : Bool} (h : servicePbWith b s = .next t)
    (hne : t.estate ≠ s.estate) : s.cnt < drawnDuty b s := by
  by_contra hnot
  exact hne (servicePb_keeps h (BitVec.not_lt.1 hnot))

theorem le_of_serviceCm_changes {s t : State} {b : Bool} (h : serviceCmWith b s = .next t)
    (hne : t.estate ≠ s.estate) : drawnDuty b s ≤ s.cnt := by
  by_contra hnot
  exact hne (serviceCm_keeps h (BitVec.not_le.1 hnot))

/-- Two services at one counter and one duty value: at most one passes its comparison. -/
theorem one_service_keeps {s t u v : State} {b b' : Bool} (hpb : servicePbWith b s = .next t)
    (hcm : serviceCmWith b' u = .next v) (hcnt : s.cnt = u.cnt)
    (hduty : drawnDuty b s = drawnDuty b' u) : t.estate = s.estate ∨ v.estate = u.estate := by
  by_cases hlt : s.cnt < drawnDuty b s
  · exact .inr (serviceCm_keeps hcm (by rwa [← hcnt, ← hduty]))
  · exact .inl (servicePb_keeps hpb (BitVec.not_lt.1 hlt))

/-- A service leaves the counter and both duty values, so the next one draws from the same. -/
theorem drawnDuty_congr {s t : State} (b : Bool) (h : t.ccr = s.ccr ∧ t.act = s.act) :
    drawnDuty b t = drawnDuty b s := by
  rw [drawnDuty, drawnDuty, h.1, h.2]

/-- Settles O48: the comparisons of the two services exclude each other, also where one follows the
other. -/
theorem noDoubleToggle : Obligations.NoDoubleToggle := by
  refine ⟨fun s t u v b b' hpb hcm => ⟨lt_of_servicePb_changes hpb, le_of_serviceCm_changes hcm,
    one_service_keeps hpb hcm⟩, fun s t u b b' hduty h => ?_⟩
  obtain ⟨hpb, hcm⟩ | ⟨hcm, hpb⟩ := h
  · obtain ⟨hcnt, hbanks⟩ := service_frame (.inl rfl) hpb
    exact one_service_keeps hpb hcm hcnt.symm (hduty.trans (drawnDuty_congr b' hbanks).symm)
  · obtain ⟨hcnt, hbanks⟩ := service_frame (.inr rfl) hcm
    exact (one_service_keeps hpb hcm hcnt ((drawnDuty_congr b' hbanks).trans hduty.symm)).symm

end Sys2Proof.Proofs

/-! SUPPORT. The obligations on the counter and the hardware outputs over time (spec R128, R130, R131, R152,
R253). In a run of a configured block the counter is the number of ticks modulo the period, so what is counted
over one period's ticks is counted over the values below the period. -/

namespace Sys2Proof.Proofs

open Sys2Proof.Machine Sys2Proof.Safety Sys2Proof.Laws

/-! ### Runs -/

/-- What a move of a run has done. -/
theorem run_effect (r : Run) (n : Nat) : (r.state n).live = true ∧
    Effect (r.state n) (r.move n) (r.state (n + 1)) :=
  effect_of_moves (r.moves n)

/-- What every move keeps holds of a run from the index where it holds first. -/
theorem run_induction {P : State → Prop} {r : Run} {a : Nat} (ha : P (r.state a))
    (hmove : ∀ {s t : State} {m : Move}, P s → Moves s m t → P t) : ∀ n, a ≤ n → P (r.state n) :=
  Nat.le_induction ha fun n _ h => hmove h (r.moves n)

theorem run_blockInv {r : Run} {a : Nat} (hinv : BlockInv (r.state a)) :
    ∀ n, a ≤ n → BlockInv (r.state n) :=
  run_induction hinv blockInv_of_moves

/-- A configured block keeps its period along a run (spec R33, R34). -/
theorem run_configured {r : Run} {a : Nat} (hc : (r.state a).configured = true) : ∀ n, a ≤ n →
    (r.state n).configured = true ∧ (r.state n).period = (r.state a).period :=
  run_induction (P := fun s => s.configured = true ∧ s.period = (r.state a).period) ⟨hc, rfl⟩
    fun ⟨hs, hp⟩ h => by
      obtain ⟨ht, hkept⟩ := effect_configured (effect_of_moves h).2 hs
      exact ⟨ht, hkept.trans hp⟩

theorem ticksAt_iff {r : Run} {n : Nat} : r.ticksAt n = true ↔ r.move n = .instr .tick :=
  decide_eq_true_iff

/-- A `TICK` of a run was enabled and leaves the state of spec R126. -/
theorem run_tick {r : Run} {n : Nat} (h : r.ticksAt n = true) : tickEnabled (r.state n) = true ∧
    r.state (n + 1) = compareMatch (count (r.state n)) := by
  obtain ⟨-, b, hexec⟩ := ticksAt_iff.1 h ▸ r.moves n
  obtain ⟨-, he, ht⟩ := execTick_next.1 hexec
  exact ⟨he, ht⟩

/-- Between ticks the counter holds. -/
theorem run_cnt_of_not_tick {r : Run} {n : Nat} (hinv : BlockInv (r.state n))
    (h : ¬ r.ticksAt n = true) : (r.state (n + 1)).cnt = (r.state n).cnt :=
  (effect_cnt_of_blockInv (run_effect r n).2 hinv).resolve_left (mt ticksAt_iff.2 h)

/-! ### Counting along a run -/

theorem run_count_succ (p : Nat → Bool) (a k : Nat) :
    Run.count p a (k + 1) = Run.count p a k + if p (a + k) = true then 1 else 0 := by
  simp [Run.count, List.range_succ, List.countP_append, List.countP_singleton]

theorem ticks_succ (r : Run) (a k : Nat) :
    r.ticks a (k + 1) = r.ticks a k + if r.ticksAt (a + k) = true then 1 else 0 :=
  run_count_succ _ a k

theorem ticks_mono (r : Run) (a k : Nat) : r.ticks a k ≤ r.ticks a (k + 1) := by
  rw [ticks_succ]
  exact Nat.le_add_right _ _

section Configured

variable {r : Run} {a : Nat}
variable (hinv : BlockInv (r.state a)) (hc : (r.state a).configured = true)
include hinv hc

/-- The counter along a run is the number of ticks modulo the period. -/
theorem run_cnt (k : Nat) : (r.state (a + k)).cnt.toNat =
    ((r.state a).cnt.toNat + r.ticks a k) % (r.state a).period.toNat := by
  induction k with
  | zero => exact (Nat.mod_eq_of_lt (BitVec.lt_def.1 (hinv.1 hc).2)).symm
  | succ k ih =>
    have hinv' := run_blockInv hinv (a + k) (Nat.le_add_right a k)
    obtain ⟨hc', hp⟩ := run_configured hc (a + k) (Nat.le_add_right a k)
    rw [ticks_succ, ← Nat.add_assoc a k 1]
    split
    next htick =>
      obtain ⟨-, ht⟩ := run_tick htick
      rw [ht, toNat_tick_cnt hinv' hc', ih, hp, Nat.mod_add_mod, Nat.add_assoc]
    next hno => rw [run_cnt_of_not_tick hinv' hno, ih, Nat.add_zero]

/-- A count over ticks that depends on the counter alone is a count over counter values. -/
theorem count_ticks {p : Nat → Bool} {g : Nat → Prop} [DecidablePred g] {k : Nat}
    (hp : ∀ j, j < k → r.ticksAt (a + j) = true →
      (p (a + j) = true ↔ g (r.state (a + j)).cnt.toNat)) :
    Run.count (fun n => r.ticksAt n && p n) a k =
      Nat.count (fun x => g (((r.state a).cnt.toNat + x) % (r.state a).period.toNat))
        (r.ticks a k) := by
  induction k with
  | zero => rfl
  | succ k ih =>
    rw [run_count_succ, ticks_succ, ih fun j hj => hp j (Nat.lt_succ_of_lt hj)]
    by_cases htick : r.ticksAt (a + k) = true
    · have hk := hp k (Nat.lt_succ_self k) htick
      rw [run_cnt hinv hc k] at hk
      simp only [htick, Bool.true_and, if_true, Nat.count_succ, hk]
    · simp [htick]

end Configured

/-- Two predicates that agree below `n` are counted alike below `n`. -/
theorem nat_count_congr {p q : Nat → Prop} [DecidablePred p] [DecidablePred q] {n : Nat}
    (h : ∀ x, x < n → (p x ↔ q x)) : Nat.count p n = Nat.count q n := by
  rw [Nat.count_eq_card_filter_range, Nat.count_eq_card_filter_range,
    Finset.filter_congr fun x hx => h x (Finset.mem_range.1 hx)]

/-- Any `p` successive values modulo `p` are the values below `p`. -/
theorem count_mod_period (g : Nat → Prop) [DecidablePred g] (c p : Nat) :
    Nat.count (fun x => g ((c + x) % p)) p = Nat.count g p := by
  have hfromC := Nat.count_add (fun x => g (x % p)) c p
  have hfromP := Nat.count_add (fun x => g (x % p)) p c
  have hbelow : Nat.count (fun x => g (x % p)) p = Nat.count g p :=
    nat_count_congr fun x hx => by rw [Nat.mod_eq_of_lt hx]
  simp only [Nat.add_mod_left] at hfromP
  rw [Nat.add_comm p c] at hfromP
  omega

/-- A value is met once among the values below `p`, or never. -/
theorem count_eq_value (v p : Nat) : Nat.count (fun x => x = v) p = if v < p then 1 else 0 := by
  rw [Nat.count_eq_card_filter_range, Finset.filter_eq']
  split <;> simp_all

theorem count_lt_value (d p : Nat) : Nat.count (fun x => x < d) p = min d p := by
  rw [Nat.count_eq_card_filter_range, ← Finset.card_range (min d p)]
  congr 1
  ext x
  simp [and_comm]

/-! ### The first period boundary (spec R128) -/

/-- Fewer than `PERIOD` ticks after a counter at 0 the counter is the number of ticks. -/
theorem run_cnt_of_lt {r : Run} {a k : Nat} (hinv : BlockInv (r.state a))
    (hc : (r.state a).configured = true) (hcnt : (r.state a).cnt = 0#16)
    (hk : r.ticks a k < (r.state a).period.toNat) :
    (r.state (a + k)).cnt.toNat = r.ticks a k := by
  rw [run_cnt hinv hc, hcnt, BitVec.toNat_ofNat, Nat.zero_mod, Nat.zero_add, Nat.mod_eq_of_lt hk]

/-- A `TICK` at index `k` of a run from a counter at 0 is a wrap exactly if it is the one of number
`PERIOD`. -/
theorem run_wrap_iff {r : Run} {a k : Nat} (hinv : BlockInv (r.state a))
    (hc : (r.state a).configured = true) (hcnt : (r.state a).cnt = 0#16)
    (hk : r.ticks a k < (r.state a).period.toNat) :
    (r.state (a + k)).cnt = (r.state (a + k)).period - 1#16 ↔
      r.ticks a k + 1 = (r.state a).period.toNat := by
  have hle := Nat.le_add_right a k
  obtain ⟨hc', hp⟩ := run_configured hc _ hle
  rw [cnt_eq_last_iff (run_blockInv hinv _ hle) hc', run_cnt_of_lt hinv hc hcnt hk, hp]

/-- Before the tick number `PERIOD` no period-boundary event becomes pending. -/
theorem run_pbf_of_lt {r : Run} {a k : Nat} (hinv : BlockInv (r.state a))
    (hc : (r.state a).configured = true) (hcnt : (r.state a).cnt = 0#16)
    (hpbf : (r.state a).pbf = false) (hk : r.ticks a k < (r.state a).period.toNat) :
    (r.state (a + k)).pbf = false := by
  induction k with
  | zero => exact hpbf
  | succ k ih =>
    have hk' := Nat.lt_of_le_of_lt (ticks_mono r a k) hk
    obtain ⟨htick, ht⟩ | ⟨-, ht⟩ | ⟨-, -, ht⟩ := effect_pbf (run_effect r (a + k)).2
    · have hup : (r.state (a + k)).cnt ≠ (r.state (a + k)).period - 1#16 := fun hwrap => by
        rw [ticks_succ, if_pos (ticksAt_iff.2 htick), (run_wrap_iff hinv hc hcnt hk').1 hwrap] at hk
        exact Nat.lt_irrefl _ hk
      rw [← Nat.add_assoc, ht, ih hk', decide_eq_false hup, Bool.or_false]
    · exact ht
    · exact ht.trans (ih hk')

/-- Settles O39: the host's writes leave the flags, and the first wrap is the tick number `PERIOD`. -/
theorem firstPeriodBoundary : Obligations.FirstPeriodBoundary := by
  refine ⟨fun s t p h => ?configure, fun s t m h => ?writeCtrl,
    fun r a k hinv hc hcnt hpbf => ⟨fun hk => ?before, fun hk htick => ?boundary⟩⟩
  case configure => exact pbf_congr (effect_isHost (effect_of_exec h).2 rfl).2.1
  case writeCtrl => exact pbf_congr (effect_isHost (effect_of_exec h).2 rfl).2.1
  case before => exact ⟨run_pbf_of_lt hinv hc hcnt hpbf hk, run_cnt_of_lt hinv hc hcnt hk⟩
  case boundary =>
    obtain ⟨hcnt', -, hpbf'⟩ := tick_wrap ((run_wrap_iff hinv hc hcnt (by omega)).2 hk)
    rw [(run_tick htick).2]
    exact ⟨hpbf', hcnt'⟩

/-! ### Events and asserted ticks per period (spec R131, R152) -/

/-- The events that an enabled `TICK` raises are read off the values it leaves. -/
theorem raises_iff {s : State} (hl : s.live = true) (he : tickEnabled s = true) :
    (raisesPb s = true ↔ s.cnt = s.period - 1#16) ∧
    (raisesCm s = true ↔
      (compareMatch (count s)).cnt = (compareMatch (count s)).act.u2) := by
  have hexec : exec .tick { s with status := 0#2 } =
      .next (compareMatch (count { s with status := 0#2 })) := execTick_next.2 ⟨hl, he, rfl⟩
  have hraises : tickRaises s = (compareMatch (count { s with status := 0#2 })).status := by
    rw [tickRaises, hexec]
  have hpb := tick_pbf { s with status := 0#2 }
  have hcm := tick_cmf { s with status := 0#2 }
  rw [State.pbf, ← hraises] at hpb
  rw [State.cmf, ← hraises] at hcm
  rw [raisesPb, raisesCm, hpb, hcm]
  simp [State.pbf, State.cmf, tick_cnt, tick_act]

/-- A `TICK` of a run raises a period-boundary event on entering 0 and a compare match on entering the
active value. -/
theorem run_raises_iff {r : Run} {n : Nat} (hinv : BlockInv (r.state n)) (h : r.ticksAt n = true) :
    (raisesPb (r.state n) = true ↔ (r.state (n + 1)).cnt = 0#16) ∧
    (raisesCm (r.state n) = true ↔ (r.state (n + 1)).cnt = (r.state (n + 1)).act.u2) := by
  obtain ⟨he, ht⟩ := run_tick h
  obtain ⟨hpb, hcm⟩ := raises_iff (run_effect r n).1 he
  rw [tickEnabled, Bool.and_eq_true] at he
  rw [hpb, hcm, ht, cnt_eq_last_iff hinv he.1, ← BitVec.toNat_inj (y := 0#16), BitVec.toNat_ofNat,
    Nat.zero_mod]
  refine ⟨?_, Iff.rfl⟩
  have hcases := toNat_tick_cnt_cases hinv he.1
  omega

/-- Among the ticks of one period each counter value below the period is entered once. -/
theorem count_entries {r : Run} {a k : Nat} {p : Nat → Bool} (v : Val) (hinv : BlockInv (r.state a))
    (hc : (r.state a).configured = true) (hk : r.ticks a k = (r.state a).period.toNat)
    (hp : ∀ j, j < k → r.ticksAt (a + j) = true →
      (p (a + j) = true ↔ (r.state (a + j + 1)).cnt = v)) :
    Run.count (fun n => r.ticksAt n && p n) a k = if v < (r.state a).period then 1 else 0 := by
  have hentered (j : Nat) (hj : j < k) (htick : r.ticksAt (a + j) = true) : p (a + j) = true ↔
      ((r.state (a + j)).cnt.toNat + 1) % (r.state a).period.toNat = v.toNat := by
    have hle := Nat.le_add_right a j
    obtain ⟨hc', hperiod⟩ := run_configured hc _ hle
    rw [hp j hj htick, (run_tick htick).2, ← BitVec.toNat_inj,
      toNat_tick_cnt (run_blockInv hinv _ hle) hc', hperiod]
  rw [count_ticks hinv hc (g := fun c => (c + 1) % (r.state a).period.toNat = v.toNat) hentered, hk]
  have hshift (x : Nat) : (((r.state a).cnt.toNat + x) % (r.state a).period.toNat + 1) %
      (r.state a).period.toNat = ((r.state a).cnt.toNat + 1 + x) % (r.state a).period.toNat := by
    rw [Nat.mod_add_mod, Nat.add_right_comm]
  simp only [hshift]
  rw [count_mod_period (fun c => c = v.toNat), count_eq_value]
  rfl

/-- Settles O40: an event is the entry of its value, which one period's ticks enter once. -/
theorem eventsPerPeriod : Obligations.EventsPerPeriod := by
  intro r a k d hinv hc hact hk
  have hraises (j : Nat) (hj : j < k) (htick : r.ticksAt (a + j) = true) :
      (raisesPb (r.state (a + j)) = true ↔ (r.state (a + j + 1)).cnt = 0#16) ∧
      (raisesCm (r.state (a + j)) = true ↔ (r.state (a + j + 1)).cnt = d) := by
    rw [← hact (j + 1) hj]
    exact run_raises_iff (run_blockInv hinv _ (Nat.le_add_right a j)) htick
  refine ⟨?_, ?_, hraises⟩
  · rw [count_entries 0#16 hinv hc hk fun j hj htick => (hraises j hj htick).1,
      if_pos ((BitVec.pos_iff_ne_zero _).2 (hinv.1 hc).1)]
  · exact count_entries d hinv hc hk fun j hj htick => (hraises j hj htick).2

/-- Settles O44: the output is the comparison with `d`, and a period from 0 passes each value below the
period once. -/
theorem hardwareDutyLaw : Obligations.HardwareDutyLaw := by
  intro r a k i d _ hinv hc hcnt hact hk
  have hout (j : Nat) (hj : j < k) :
      out i (r.state (a + j)) = true ↔ (r.state (a + j)).cnt.toNat < d.toNat := by
    rw [out_eq_true_iff, hact j hj]
  refine ⟨hout, ?_⟩
  rw [count_ticks hinv hc (g := fun c => c < d.toNat) fun j hj _ => hout j hj, hk,
    count_mod_period (fun c => c < d.toNat), count_lt_value, Nat.min_comm]

/-! ### A stopped counter (spec R130, R253) -/

/-- With `CEN = 0` a move keeps the counter, and the flags and active values change without a `TICK`. -/
theorem moves_of_stopped {s t : State} {m : Move} (hcen : s.cen = false) (hinv : BlockInv s)
    (h : Moves s m t) : t.cnt = s.cnt ∧ (t.pbf ≠ s.pbf → m = .instr .servicePb) ∧
      (t.cmf ≠ s.cmf → m = .instr .serviceCm ∨ (m = .instr (.latch 2#2) ∧ t.cmf = true)) ∧
      (t.act ≠ s.act → ∃ i, m = .instr (.latch (chOf i))) := by
  have heff := (effect_of_moves h).2
  have hno : m ≠ .instr .tick := fun htick => by
    have he := (effect_enabled heff).1 htick
    simp [tickEnabled, hcen] at he
  refine ⟨(effect_cnt_of_blockInv heff hinv).resolve_left hno, fun hne => ?_, fun hne => ?_,
    fun hne => ?_⟩
  · obtain ⟨htick, -⟩ | ⟨hm, -⟩ | ⟨-, -, hkept⟩ := effect_pbf heff
    · exact absurd htick hno
    · exact hm
    · exact absurd hkept hne
  · obtain ⟨htick, -⟩ | ⟨hm, -⟩ | ⟨hm, hkept | ⟨hset, -⟩⟩ | ⟨-, -, hkept⟩ := effect_cmf heff
    · exact absurd htick hno
    · exact .inl hm
    · exact absurd hkept hne
    · exact .inr ⟨hm, hset⟩
    · exact absurd hkept hne
  · obtain ⟨htick, -⟩ | ⟨i, hm, -⟩ | ⟨-, hkept⟩ := effect_act heff
    · exact absurd htick hno
    · exact ⟨i, hm⟩
    · exact absurd hkept hne

/-- Settles O38: what a move does while `CEN = 0`, and a block that only `CONFIGURE` could start. -/
theorem stoppedCounter : Obligations.StoppedCounter := by
  refine ⟨fun s hcen => ⟨exec_tick_ne_next fun ⟨_, _, h⟩ => absurd (hcen.symm.trans h) nofun,
    fun hl i hne => ⟨_, latchWith_chOf_next.2 ⟨hl, hne, rfl⟩⟩,
    fun t m => moves_of_stopped hcen⟩, fun r a hinv hc hno n hn => ?unconfigured⟩
  case unconfigured =>
    have hc' : (r.state n).configured = false := by
      induction n, hn using Nat.le_induction with
      | base => exact hc
      | succ n hn ih =>
        obtain ⟨hkept, -⟩ | ⟨p, -, hm, -⟩ := effect_configured_period (run_effect r n).2
        · exact hkept.trans ih
        · exact absurd hm (hno n p hn)
    refine ⟨fun htick => ?_, hc', ((run_blockInv hinv n hn).2 hc').2.1⟩
    have he := (effect_enabled (run_effect r n).2).1 htick
    simp [tickEnabled, hc'] at he

end Sys2Proof.Proofs

/-! SUPPORT. The obligations on the software channel over time and on admitted runs (spec R179, R180, R183,
R184, R251). With the written and the active value of unit 2 equal every draw gives the same duty value, so a
service's effect on the pin is decided by the counter. -/

namespace Sys2Proof.Proofs

open Sys2Proof.Machine Sys2Proof.Safety Sys2Proof.Laws

/-! ### The pin under a settled duty value -/

/-- Where both values of unit 2 are `d`, every draw is `d`. -/
theorem drawnDuty_of_settled {s : State} {d : Val} (hd : s.ccr.u2 = d ∧ s.act.u2 = d) (b : Bool) :
    drawnDuty b s = d := by
  obtain h | h := drawnDuty_cases b s
  · exact h.trans hd.1
  · exact h.trans hd.2

/-- `ESTATE` under a move with a settled duty value: below it a service asserts at most, and from it on a
service deasserts at most. -/
theorem estate_of_settled {s t : State} {m : Move} {d : Val} (h : Effect s m t)
    (hd : s.ccr.u2 = d ∧ s.act.u2 = d) :
    (s.cnt < d → s.estate = .asserted → t.estate = .asserted) ∧
    (d ≤ s.cnt → s.estate = .deasserted → t.estate = .deasserted) := by
  obtain ⟨-, b, ht⟩ | ⟨-, b, ht⟩ | ⟨-, -, ht⟩ := effect_estate h
  · rw [drawnDuty_of_settled hd] at ht
    refine ⟨fun hlt _ => by rw [ht, if_pos hlt], fun hle hs => ?_⟩
    rw [ht, if_neg (BitVec.not_lt.2 hle), hs]
  · rw [drawnDuty_of_settled hd] at ht
    refine ⟨fun hlt hs => ?_, fun hle _ => by rw [ht, if_pos hle]⟩
    rw [ht, if_neg (BitVec.not_le.2 hlt), hs]
  · exact ⟨fun _ hs => ht.trans hs, fun _ hs => ht.trans hs⟩

/-! ### Duty 0 (spec R179) -/

/-- Settles O50: the counter is never below 0, and a wrap enters it. -/
theorem dutyZeroIsAlwaysOff : Obligations.DutyZeroIsAlwaysOff := by
  refine ⟨fun s t b hccr hact => ⟨fun h => ?pb, fun h => ?cm, fun h hwrap => ?wrap⟩,
    fun r a hd ha n hn => ?run⟩
  case pb =>
    refine servicePb_keeps h ?_
    rw [drawnDuty_of_settled ⟨hccr, hact⟩]
    exact BitVec.le_def.2 (Nat.zero_le _)
  case cm =>
    rw [← ne_asserted_iff, ne_eq, serviceCm_asserted_iff h, drawnDuty_of_settled ⟨hccr, hact⟩]
    exact fun ⟨_, hlt⟩ => BitVec.not_lt_zero hlt
  case wrap =>
    obtain ⟨-, -, rfl⟩ := execTick_next.1 h
    obtain ⟨hcnt, hact', -⟩ := tick_wrap hwrap
    rw [tick_cmf, hcnt, hact', hccr, decide_eq_true rfl, Bool.or_true]
  case run =>
    have hoff : (r.state n).estate = .deasserted := by
      induction n, hn using Nat.le_induction with
      | base => exact ha
      | succ n hn ih => exact (estate_of_settled (run_effect r n).2 (hd n hn)).2 (BitVec.le_def.2 (Nat.zero_le _)) ih
    rw [swout, hoff]
    rfl

/-! ### A duty value at or above the period (spec R180) -/

/-- With both values at or above the period no move makes a compare match pending. -/
theorem cmf_of_period_le {s t : State} {m : Move} {d : Val} (h : Effect s m t) (hinv : BlockInv s)
    (hc : s.configured = true) (hle : s.period ≤ d) (hd : s.ccr.u2 = d ∧ s.act.u2 = d)
    (hd' : t.act.u2 = d) (hs : s.cmf = false) : t.cmf = false := by
  obtain ⟨-, hlt⟩ := hinv.1 hc
  obtain ⟨rfl, -⟩ | ⟨-, ht⟩ | ⟨-, ht | ⟨-, -, heq⟩⟩ | ⟨-, -, ht⟩ := effect_cmf h
  · cases h with
    | tick he => rw [tick_cmf_of_period_le hlt (by rwa [hd']), hs]
  · exact ht
  · exact ht.trans hs
  · rw [hd.1] at heq
    exact absurd (heq ▸ hlt) (BitVec.not_lt.2 hle)
  · exact ht.trans hs

/-- Settles O51: the counter stays below `d`, so no tick or `LATCH` matches and no service deasserts. -/
theorem dutyAtThePeriodIsAlwaysOn : Obligations.DutyAtThePeriodIsAlwaysOn := by
  intro r a d hinv hc hle hd
  have hat (n : Nat) (hn : a ≤ n) : BlockInv (r.state n) ∧ (r.state n).configured = true ∧
      (r.state n).period ≤ d := by
    obtain ⟨hc', hp⟩ := run_configured hc n hn
    exact ⟨run_blockInv hinv n hn, hc', hp ▸ hle⟩
  have hbelow (n : Nat) (hn : a ≤ n) : (r.state n).cnt < d := by
    obtain ⟨hinv', hc', hle'⟩ := hat n hn
    have hlt := (hinv'.1 hc').2
    bv_omega
  refine ⟨fun n hn htick => ?noEvent, fun n m hn hcmf hm => ?notPending, fun n m hn hpb hm => ?on⟩
  case noEvent =>
    obtain ⟨-, hcm⟩ := run_raises_iff (hat n hn).1 htick
    rw [← Bool.not_eq_true, hcm, (hd (n + 1) (by omega)).2]
    exact BitVec.ne_of_lt (hbelow (n + 1) (by omega))
  case notPending =>
    induction m, hm using Nat.le_induction with
    | base => exact hcmf
    | succ m hm ih =>
      have ham := hn.trans hm
      obtain ⟨hinv', hc', hle'⟩ := hat m ham
      exact cmf_of_period_le (run_effect r m).2 hinv' hc' hle' (hd m ham) (hd (m + 1) (by omega)).2 ih
  case on =>
    rw [swout_eq_true_iff]
    induction m, hm using Nat.le_induction with
    | base =>
      obtain ⟨-, b, h⟩ := hpb ▸ r.moves n
      rw [servicePb_asserted_iff h, drawnDuty_of_settled (hd n hn)]
      exact .inr (hbelow n hn)
    | succ m hm ih =>
      have ham : a ≤ m := by omega
      exact (estate_of_settled (run_effect r m).2 (hd m ham)).1 (hbelow m ham) ih

/-! ### The first period (spec R183) -/

/-- A `SERVICE_PB` is taken only with its flag pending, and nothing else asserts. -/
theorem estate_of_no_pbf {s t : State} {m : Move} (h : Effect s m t) (hpbf : s.pbf = false)
    (hs : s.estate = .deasserted) : t.estate = .deasserted := by
  obtain ⟨hm, -⟩ | ⟨-, b, ht⟩ | ⟨-, -, ht⟩ := effect_estate h
  · have he := pbEnabled_iff.1 ((effect_enabled h).2.1 hm)
    simp [hpbf] at he
  · rw [ht, hs, ite_self]
  · exact ht.trans hs

/-- Settles O53: before the tick number `PERIOD` there is no event to serve. -/
theorem firstPeriodIsDeasserted : Obligations.FirstPeriodIsDeasserted := by
  intro r a k hinv hc hcnt hpbf hs hk
  have hoff : (r.state (a + k)).estate = .deasserted := by
    induction k with
    | zero => exact hs
    | succ k ih =>
      have hk' := Nat.lt_of_le_of_lt (ticks_mono r a k) hk
      exact estate_of_no_pbf (run_effect r (a + k)).2 (run_pbf_of_lt hinv hc hcnt hpbf hk') (ih hk')
  rw [swout, hoff]
  rfl

/-! ### Prompt service and the hardware waveform (spec R184) -/

/-- With `LAT = 0` no flag is pending where a `TICK` is taken, since a `TICK` clears none. -/
theorem not_pending_at_tick {r : Run} {n : Nat} {flag : State → Bool}
    (hlat : r.ServedWithin (some 0) flag) (htick : r.ticksAt n = true)
    (hkeep : flag (r.state n) = true → flag (r.state (n + 1)) = true) :
    flag (r.state n) = false := by
  rw [← Bool.not_eq_true]
  intro hflag
  have hticks := hlat n 1 fun j hj => by
    obtain rfl | rfl : j = 0 ∨ j = 1 := by omega
    · exact hflag
    · exact hkeep hflag
  rw [ticks_succ, Nat.add_zero, if_pos htick] at hticks
  omega

/-- The pin follows the comparison of the counter with `d`, up to the events still pending: a pending
boundary stands at 0, a pending match at `d`, and each is what is left to be served. -/
structure FollowsDuty (d : Val) (s : State) : Prop where
  boundary : s.pbf = true → s.cnt = 0#16
  compare : s.cmf = true → s.cnt = d
  off : s.cmf = false → s.estate = .asserted → s.cnt < d
  on : s.pbf = false → s.cmf = false → s.cnt < d → s.estate = .asserted

/-- What a move can do where unit 2's values are both `d`: a tick, a service comparing against `d`, or
nothing to the counter, the flags and the pin. -/
theorem effect_of_settled {s t : State} {m : Move} {d : Val} (h : Effect s m t) (hinv : BlockInv s)
    (hd : s.ccr.u2 = d ∧ s.act.u2 = d) :
    (m = .instr .tick ∧ t = compareMatch (count s)) ∨
      (pbEnabled s = true ∧ t = afterServicePb d s) ∨
      (cmEnabled s = true ∧ t = afterServiceCm d s) ∨
      (t.cnt = s.cnt ∧ t.pbf = s.pbf ∧ t.cmf = s.cmf ∧ t.estate = s.estate) := by
  cases h with
  | tick => exact .inl ⟨rfl, rfl⟩
  | servicePb b he =>
    refine .inr (.inl ⟨he, ?_⟩)
    rw [assertEdge_eq_of_guard, drawnDuty_of_settled hd]
    rfl
  | serviceCm b he =>
    refine .inr (.inr (.inl ⟨he, ?_⟩))
    rw [deassertEdge_eq_of_guard, drawnDuty_of_settled hd]
    rfl
  | latch b i he =>
    have hi : i ≠ .sw := by
      rintro rfl
      simp [latchEnabled, Bank.get, hd] at he
    exact .inr (.inr (.inr ⟨by simp [latch_frame], latch_pbf b i s, by simp [latch_cmf, hi],
      by simp [latch_frame]⟩))
  | configure p hp hc =>
    obtain ⟨-, hcnt, -⟩ := hinv.2 hc
    exact .inr (.inr (.inr ⟨hcnt.symm, rfl, rfl, rfl⟩))
  | illegal | badPeriod | reconfigure | setDuty | badChannel | notConfigured | writeCtrl | readCnt
  | delay => exact .inr (.inr (.inr ⟨rfl, rfl, rfl, rfl⟩))

/-- A served boundary leaves the pin at the comparison. -/
theorem followsDuty_afterServicePb {d : Val} {s : State} (h : FollowsDuty d s) :
    FollowsDuty d (afterServicePb d s) where
  boundary hpbf := absurd ((pbf_afterServicePb d s).symm.trans hpbf) nofun
  compare hcmf := h.compare ((cmf_afterServicePb d s).symm.trans hcmf)
  off hcmf hon := by
    obtain hon | hlt := afterServicePb_asserted_iff.1 hon
    · exact h.off ((cmf_afterServicePb d s).symm.trans hcmf) hon
    · exact hlt
  on _ _ hlt := afterServicePb_asserted_iff.2 (.inr hlt)

/-- A served match leaves the pin at the comparison: it stood at `d`, where the pin is off. -/
theorem followsDuty_afterServiceCm {d : Val} {s : State} (h : FollowsDuty d s)
    (hcmf : s.cmf = true) : FollowsDuty d (afterServiceCm d s) where
  boundary hpbf := h.boundary ((pbf_afterServiceCm d s).symm.trans hpbf)
  compare hcmf' := absurd ((cmf_afterServiceCm d s).symm.trans hcmf') nofun
  off _ hon := (afterServiceCm_asserted_iff.1 hon).2
  on _ _ hlt := absurd (h.compare hcmf) (BitVec.ne_of_lt hlt)

/-- A wrap with no match pending leaves the boundary to be served, whatever the pin was. -/
theorem followsDuty_wrap {d : Val} {s : State} (hcmf : s.cmf = false)
    (hwrap : s.cnt = s.period - 1#16) (hact : (compareMatch (count s)).act.u2 = d) :
    FollowsDuty d (compareMatch (count s)) := by
  obtain ⟨hcnt, -, hpbf⟩ := tick_wrap hwrap
  have hcmf' := tick_cmf s
  rw [hcmf, hcnt, hact, Bool.false_or] at hcmf'
  refine ⟨fun _ => hcnt, fun h => ?_, fun h _ => ?_, fun h => absurd (hpbf.symm.trans h) nofun⟩
  · rw [hcnt]
    exact of_decide_eq_true (hcmf'.symm.trans h)
  · rw [hcnt, BitVec.pos_iff_ne_zero]
    exact Ne.symm (of_decide_eq_false (hcmf'.symm.trans h))

/-- A `TICK` with nothing pending moves the counter and leaves what it meets to be served. -/
theorem followsDuty_tick {d : Val} {s : State} (h : FollowsDuty d s) (hinv : BlockInv s)
    (hc : s.configured = true) (hpbf : s.pbf = false) (hcmf : s.cmf = false)
    (hact : (compareMatch (count s)).act.u2 = d) : FollowsDuty d (compareMatch (count s)) := by
  by_cases hwrap : s.cnt = s.period - 1#16
  · exact followsDuty_wrap hcmf hwrap hact
  · obtain ⟨hcnt, -, hpbf'⟩ := tick_up hwrap
    obtain ⟨hsucc, -⟩ := toNat_cnt_add_one hinv hc hwrap
    have hcmf' := tick_cmf s
    have hestate : (compareMatch (count s)).estate = s.estate := by simp [tick_frame]
    rw [hcmf, hact, Bool.false_or] at hcmf'
    refine ⟨fun hp => ?_, fun hm => ?_, fun hm hon => ?_, fun _ _ hlt => ?_⟩
    · exact absurd (hpbf.symm.trans (hpbf'.symm.trans hp)) nofun
    · exact of_decide_eq_true (hcmf'.symm.trans hm)
    · have hne := of_decide_eq_false (hcmf'.symm.trans hm)
      have hlt := h.off hcmf (hestate.symm.trans hon)
      rw [hcnt] at hne ⊢
      bv_omega
    · rw [hestate]
      refine h.on hpbf hcmf ?_
      rw [hcnt] at hlt
      bv_omega

/-- From the first wrap on, a promptly served run with a settled duty value follows it. -/
theorem run_followsDuty {r : Run} {a w : Nat} {d : Val} (hlat : r.Latency (some 0))
    (hinv : BlockInv (r.state a)) (hd : ∀ n, a ≤ n → (r.state n).ccr.u2 = d ∧ (r.state n).act.u2 = d)
    (hw : a ≤ w) (htick : r.ticksAt w = true)
    (hwrap : (r.state w).cnt = (r.state w).period - 1#16) :
    ∀ n, w + 1 ≤ n → FollowsDuty d (r.state n) := by
  obtain ⟨hlatPb, hlatCm⟩ := hlat
  have hnone (n : Nat) (h : r.ticksAt n = true) :
      (r.state n).pbf = false ∧ (r.state n).cmf = false := by
    obtain ⟨hpb, hcm⟩ := tick_keeps_flags (r.state n)
    rw [← (run_tick h).2] at hpb hcm
    exact ⟨not_pending_at_tick hlatPb h hpb, not_pending_at_tick hlatCm h hcm⟩
  intro n hn
  induction n, hn using Nat.le_induction with
  | base =>
    have hact := (hd (w + 1) (by omega)).2
    rw [(run_tick htick).2] at hact ⊢
    exact followsDuty_wrap (hnone w htick).2 hwrap hact
  | succ n hn ih =>
    have han : a ≤ n := by omega
    have hinv' := run_blockInv hinv n han
    obtain ⟨hm, ht⟩ | ⟨he, ht⟩ | ⟨he, ht⟩ | ⟨hcnt, hpbf, hcmf, hestate⟩ :=
      effect_of_settled (run_effect r n).2 hinv' (hd n han)
    · have hnext := ticksAt_iff.2 hm
      obtain ⟨hpbf, hcmf⟩ := hnone n hnext
      have hc := (run_tick hnext).1
      rw [tickEnabled, Bool.and_eq_true] at hc
      have hact := (hd (n + 1) (by omega)).2
      rw [ht] at hact ⊢
      exact followsDuty_tick ih hinv' hc.1 hpbf hcmf hact
    · rw [ht]
      exact followsDuty_afterServicePb ih
    · rw [ht]
      exact followsDuty_afterServiceCm ih (cmEnabled_iff.1 he).2.2
    · obtain ⟨hboundary, hcompare, hoff, hon⟩ := ih
      exact ⟨by rwa [hpbf, hcnt], by rwa [hcmf, hcnt], by rwa [hcmf, hestate, hcnt],
        by rwa [hpbf, hcmf, hcnt, hestate]⟩

/-- Settles O54: with nothing pending the pin is the comparison with `d`, which is any unit's output with
active value `d`. -/
theorem softwareMatchesHardwareWaveform : Obligations.SoftwareMatchesHardwareWaveform := by
  intro r a w d hlat hinv hd hw htick hwrap n hn hpbf hcmf
  have h := run_followsDuty hlat hinv hd hw (ticksAt_iff.2 htick) hwrap n hn
  have hswout : swout (r.state n) = decide ((r.state n).cnt < d) :=
    decide_eq_decide.2 ⟨h.off hcmf, h.on hpbf hcmf⟩
  exact ⟨hswout, fun i hi => by rw [hswout, out, hi]⟩

/-! ### Admitted runs (spec R125, R251) -/

/-- In a weakly fair run a step is taken under any condition that enables it and lasts as long as the step
is not taken. -/
theorem taken_of_fair {r : Run} {n : Nat} {enabled : State → Bool} {i : Instr}
    (hfair : r.FairFor enabled fun m => decide (m = .instr i)) (C : State → Prop)
    (hn : C (r.state n))
    (hkeep : ∀ m, n ≤ m → C (r.state m) → r.move m ≠ .instr i → C (r.state (m + 1)))
    (hen : ∀ m, n ≤ m → C (r.state m) → enabled (r.state m) = true) :
    ∃ m, n ≤ m ∧ r.move m = .instr i ∧ C (r.state m) := by
  by_contra hno
  have hnever (m : Nat) (hm : n ≤ m) (hC : C (r.state m)) : r.move m ≠ .instr i :=
    fun h => hno ⟨m, hm, h, hC⟩
  have hC : ∀ m, n ≤ m → C (r.state m) :=
    Nat.le_induction hn fun m hm h => hkeep m hm h (hnever m hm h)
  obtain ⟨m, hm, htaken⟩ := hfair n fun m hm => hen m hm (hC m hm)
  exact hnever m hm (hC m hm) (of_decide_eq_true htaken)

/-- Settles O55: a flag stays pending until it is served. -/
theorem fairRunServicesPendingEvents : Obligations.FairRunServicesPendingEvents := by
  refine fun r n hfair hgie => ⟨fun hpbie hpbf => ?pb, fun hcmie hcmf => ?cm⟩
  case pb =>
    obtain ⟨m, hm, htaken, -⟩ := taken_of_fair hfair.servicePb (fun s => s.pbf = true) hpbf
      (fun m _ hs hno => pbf_kept (run_effect r m).2 hno hs)
      fun m hm hs => pbEnabled_iff.2 ⟨hgie m hm, hpbie m hm, hs⟩
    exact ⟨m, hm, htaken⟩
  case cm =>
    obtain ⟨m, hm, htaken, -⟩ := taken_of_fair hfair.serviceCm (fun s => s.cmf = true) hcmf
      (fun m _ hs hno => cmf_kept (run_effect r m).2 hno hs)
      fun m hm hs => cmEnabled_iff.2 ⟨hgie m hm, hcmie m hm, hs⟩
    exact ⟨m, hm, htaken⟩

/-- In an admitted run some next tick counts on from where the counter is now. -/
theorem exists_next_tick {r : Run} {n : Nat} (hfair : r.WeaklyFair) (hinv : BlockInv (r.state n))
    (hc : (r.state n).configured = true) (hcen : ∀ m, n ≤ m → (r.state m).cen = true) :
    ∃ m, n ≤ m ∧ r.move m = .instr .tick ∧
      (r.state (m + 1)).cnt.toNat = ((r.state n).cnt.toNat + 1) % (r.state n).period.toNat := by
  obtain ⟨m, hm, htick, hcnt⟩ := taken_of_fair hfair.tick (fun s => s.cnt = (r.state n).cnt) rfl
    (fun m hm hs hno =>
      (run_cnt_of_not_tick (run_blockInv hinv m hm) (mt ticksAt_iff.1 hno)).trans hs)
    fun m hm _ => by rw [tickEnabled, (run_configured hc m hm).1, hcen m hm, Bool.and_true]
  obtain ⟨hc', hp⟩ := run_configured hc m hm
  refine ⟨m, hm, htick, ?_⟩
  rw [(run_tick (ticksAt_iff.2 htick)).2, toNat_tick_cnt (run_blockInv hinv m hm) hc', hcnt, hp]

/-- A counter value that is `j + 1` ticks away is entered. -/
theorem exists_entry {r : Run} {c : Val} (hfair : r.WeaklyFair) (j : Nat) : ∀ n,
    BlockInv (r.state n) → (r.state n).configured = true → (∀ m, n ≤ m → (r.state m).cen = true) →
    ((r.state n).cnt.toNat + (j + 1)) % (r.state n).period.toNat = c.toNat →
    ∃ m, n ≤ m ∧ r.move m = .instr .tick ∧ (r.state (m + 1)).cnt = c := by
  induction j with
  | zero =>
    intro n hinv hc hcen hdist
    obtain ⟨m, hm, htick, hcnt⟩ := exists_next_tick hfair hinv hc hcen
    exact ⟨m, hm, htick, BitVec.eq_of_toNat_eq (hcnt.trans hdist)⟩
  | succ j ih =>
    intro n hinv hc hcen hdist
    obtain ⟨m, hm, -, hcnt⟩ := exists_next_tick hfair hinv hc hcen
    have hm' : n ≤ m + 1 := Nat.le_succ_of_le hm
    obtain ⟨hc', hp⟩ := run_configured hc (m + 1) hm'
    have hdist' : ((r.state (m + 1)).cnt.toNat + (j + 1)) % (r.state (m + 1)).period.toNat =
        c.toNat := by
      rw [hp, hcnt, Nat.mod_add_mod, ← hdist, Nat.add_assoc, Nat.add_comm 1 (j + 1)]
    obtain ⟨q, hq, hentry⟩ := ih (m + 1) (run_blockInv hinv _ hm') hc'
      (fun q hq => hcen q (hm'.trans hq)) hdist'
    exact ⟨q, hm'.trans hq, hentry⟩

/-- Settles O56: every value below the period is at most a period's ticks away. -/
theorem fairRunCountsForever : Obligations.FairRunCountsForever := by
  intro r n c hfair hinv hc hcen hlt
  have hcnt := BitVec.lt_def.1 (hinv.1 hc).2
  refine exists_entry hfair (c.toNat + (r.state n).period.toNat - (r.state n).cnt.toNat - 1) n hinv hc
    hcen ?_
  have hdist : (r.state n).cnt.toNat +
      (c.toNat + (r.state n).period.toNat - (r.state n).cnt.toNat - 1 + 1) =
        c.toNat + (r.state n).period.toNat := by omega
  rw [hdist, Nat.add_mod_right, Nat.mod_eq_of_lt (BitVec.lt_def.1 hlt)]

end Sys2Proof.Proofs
